-- ==== Sys2Proof/Word.lean ====
section
/-! DEFINITION. The widths of the block: cells and text bytes, command words, frames, register addresses. -/

namespace Sys2Proof

/-- A buffer cell, a frame's data byte or a byte of text (R23, R71, R14). -/
abbrev Byte := BitVec 8

/-- A command word (R76, format `CMD32`). -/
abbrev Word := BitVec 32

/-- The sixteen bits a device slot carries on the wire (R71, format `FRAME16`). -/
abbrev FrameWord := BitVec 16

/-- A device register address (R51, R71). -/
abbrev Addr := BitVec 4

end Sys2Proof
end

