-- ==== Sys2Proof/Config.lean ====
section
/-! DEFINITION. The configuration parameters of R7 and the free values of the device chain. -/

namespace Sys2Proof

/-- Rows of one device's buffer (R7: `ROWS` = 8). -/
def rows : Nat := 8

/-- The number of chain positions the state holds: the most devices `NDEV` (8 bits, R21) can count.
DESIGN CHOICE (log 6), unsafe: the spec's observer has exactly `N` devices. -/
def maxDevices : Nat := 255

/-- A font glyph: 7 rows of 5 columns, bit `c` of a row being font column `c` (R9, R52). -/
abbrev Glyph := Vector (BitVec 5) 7

/-- The parameters R7 leaves OPEN. Their types admit exactly the values R7 allows. -/
structure Config where
  /-- `NMAX - 1`: `NMAX` is 1 to 255 (R7, D7). -/
  nmaxPred : Fin 255
  /-- `FONT_DIGIT` (R9). -/
  fontDigit : Vector Glyph 10
  /-- `FONT_LETTER` (R9). -/
  fontLetter : Vector Glyph 26
  /-- `DEG_ROW0`, the degree pattern's first byte (D15). -/
  degRow0 : Byte
  /-- `DEG_ROW1`, the degree pattern's second byte (D15). -/
  degRow1 : Byte
  /-- `INIT_INTENSITY`, 0x00 to 0x0F (D11). -/
  initIntensity : BitVec 4
  /-- `INIT_SHUTDOWN_FIRST`, 0x00 or 0x01 (D10, conflict C3). -/
  initShutdownFirst : BitVec 1
  deriving DecidableEq, Repr, Inhabited

/-- `NMAX`, the capacity of the buffer (R7). -/
def Config.nmax (c : Config) : Nat := c.nmaxPred.val + 1

/-- The configuration of the hardware itself: every parameter is open (R7), so nothing is known of it (log 2). -/
opaque Config.platform : Config

/-- One device of the chain: its shift register and its registers (R171). -/
structure Device where
  /-- `SR`, the shift register. -/
  sr : FrameWord
  /-- `DIGIT[0..7]`, one register a row. -/
  digits : Vector Byte 8
  /-- `DECODE`. -/
  decode : Byte
  /-- `INTENSITY`. -/
  intensity : BitVec 4
  /-- `SCANLIMIT`. -/
  scanLimit : BitVec 3
  /-- `SHUTDOWN`: 0 is shutdown, 1 normal operation. -/
  shutdown : BitVec 1
  /-- `TEST`: 1 is display test. -/
  test : BitVec 1
  deriving DecidableEq, Repr, Inhabited

/-- A device as State.reset lists it: every register zero. DESIGN CHOICE (log 5), unsafe: R183 leaves every
observer register unspecified at power-up. -/
def Device.powerUp : Device :=
  { sr := 0, digits := Vector.replicate 8 0, decode := 0, intensity := 0, scanLimit := 0, shutdown := 0, test := 0 }

/-- The free value of R181: what the device at a position has become after latching address 0xD or 0xE, for
each number of the draw (log 9). -/
opaque Config.freeDevice : Nat → Nat → Device

end Sys2Proof
end

