-- ==== Sys2Proof/Syntax.lean ====
section
/-! DEFINITION. The instructions: the thirteen commands of the command port and the fourteen frame kinds of the
device chain, one constructor for each row of spec/opcode_table.json. -/

namespace Sys2Proof

/-- A (register, data) pair for one device slot (R71). -/
structure Frame where
  addr : Addr
  data : Byte
  deriving DecidableEq, Repr, Inhabited

/-- The no-op frame: the no-op register with zero data (R104, R174). -/
def Frame.noop : Frame := { addr := 0x0, data := 0x00 }

/-- One instruction: a command of the block (R77) or a frame a device latches (R84). -/
inductive Instr where
  /-- BEGIN n (R153). -/
  | begin (n : Byte)
  /-- BUS_BROADCAST reg, data (R103). -/
  | busBroadcast (reg : Addr) (data : Byte)
  /-- BUS_TARGETED dev, reg, data (R104). -/
  | busTargeted (dev : Byte) (reg : Addr) (data : Byte)
  /-- RENDER_DIGIT dev, number: the sixteen bits of `arg`, read as a signed number by the meaning (R79, R123). -/
  | renderDigit (dev : Byte) (arg : BitVec 16)
  /-- RENDER_LETTER dev, letter (R124). -/
  | renderLetter (dev : Byte) (letter : Byte)
  /-- RENDER_TEXT "text": the `L` payload bytes, first character first (R125). -/
  | renderText (text : List Byte)
  /-- CLEAR_DEVICE dev (R127). -/
  | clearDevice (dev : Byte)
  /-- SET_COLON dev, on (R128). -/
  | setColon (dev : Byte) (on : Bool)
  /-- SET_DECIMAL dev, on (R129). -/
  | setDecimal (dev : Byte) (on : Bool)
  /-- SET_DEGREE dev, on (R130). -/
  | setDegree (dev : Byte) (on : Bool)
  /-- CLEAR_ALL_INDICATORS (R131). -/
  | clearAllIndicators
  /-- REFRESH (R150). -/
  | refresh
  /-- CLEAR_DISPLAY (R152). -/
  | clearDisplay
  /-- Frame NOOP, address 0x0 (R174). -/
  | noop (data : Byte)
  /-- Frame DIGIT0, address 0x1 (R175). -/
  | digit0 (data : Byte)
  /-- Frame DIGIT1, address 0x2 (R175). -/
  | digit1 (data : Byte)
  /-- Frame DIGIT2, address 0x3 (R175). -/
  | digit2 (data : Byte)
  /-- Frame DIGIT3, address 0x4 (R175). -/
  | digit3 (data : Byte)
  /-- Frame DIGIT4, address 0x5 (R175). -/
  | digit4 (data : Byte)
  /-- Frame DIGIT5, address 0x6 (R175). -/
  | digit5 (data : Byte)
  /-- Frame DIGIT6, address 0x7 (R175). -/
  | digit6 (data : Byte)
  /-- Frame DIGIT7, address 0x8 (R175). -/
  | digit7 (data : Byte)
  /-- Frame DECODE_MODE, address 0x9 (R176). -/
  | decodeMode (data : Byte)
  /-- Frame INTENSITY, address 0xA (R177). -/
  | intensity (data : Byte)
  /-- Frame SCAN_LIMIT, address 0xB (R178). -/
  | scanLimit (data : Byte)
  /-- Frame SHUTDOWN, address 0xC (R179). -/
  | shutdown (data : Byte)
  /-- Frame DISPLAY_TEST, address 0xF (R180). -/
  | displayTest (data : Byte)
  deriving DecidableEq, Repr

end Sys2Proof
end

