-- ==== Sys2Proof/Machine/State.lean ====
section
/-! DEFINITION. The state of the block and of the device chain it drives, as plain data, and its reset value. -/

namespace Sys2Proof.Machine

/-- One event on the three wires (R11, R27, R88). -/
inductive WireEvent where
  /-- `CS_LOW`: chip-select asserted. -/
  | csLow
  /-- `CS_HIGH`: chip-select deasserted; every device latches (R173). -/
  | csHigh
  /-- `BIT(b)`: one bit clocked out (R100). -/
  | bit (b : Bool)
  deriving DecidableEq, Repr

/-- The record FAULT holds: one of the four faults of R202 with its info. -/
inductive FaultRecord where
  /-- Code 1: a reserved `op`, a nonzero must-be-zero field, or a bus command to 0xD or 0xE; the command word. -/
  | illegalCommand (word : Word)
  /-- Code 2: a command other than BEGIN while INIT is 0; its `op`. -/
  | notInitialized (op : BitVec 4)
  /-- Code 3: BEGIN with a count of 0 or over NMAX; the count. -/
  | badDeviceCount (n : Byte)
  /-- Code 4: BUS_TARGETED with a target that is no device; the target. -/
  | badTarget (target : Byte)
  deriving DecidableEq, Repr

/-- The Display Buffer: cells that differ from what an unlisted cell reads as, by rising flat address
`8*d + r` (R50, D27). -/
abbrev Memory := List Host.Cell

@[ext]
structure State where
  /-- The configuration parameters of R7: never written (R31). Not state by R20; held here so that what is said of
  every state is said of every configuration (log 2). -/
  cfg : Config
  /-- INIT (R22). -/
  init : Bool
  /-- NDEV, the device count `N` (R21). -/
  ndev : Byte
  /-- The Display Buffer (R23). -/
  buf : Memory
  /-- DIN, the serial data port (R25, R33). -/
  din : Bool
  /-- CLK, the serial clock port (R25, R33). -/
  clk : Bool
  /-- CS, the chip-select port, active low (R25, R33). -/
  cs : Bool
  /-- DRIVEN: the ports are configured as outputs (R25). -/
  driven : Bool
  /-- FAULT (R26). -/
  fault : Option FaultRecord
  /-- TRACE, oldest event first (R27). -/
  trace : List WireEvent
  /-- The devices by physical position, position 0 wired to DIN (R170, R171). -/
  chain : List Device
  /-- The model's own: bytes presented on the command port and not yet taken (logs 1, 11). -/
  port : List Byte
  /-- The model's own: a device is about to latch its frame as a step of its own (log 8). -/
  latchPending : Bool
  /-- The model's own: the position of that device (log 8). -/
  latchPos : Nat
  /-- The model's own: how many free device values have been drawn (log 9). -/
  draws : Nat
  deriving DecidableEq, Repr

/-- Why the machine stops. -/
inductive Fault where
  /-- Raised by every step, and by every command's meaning, while FAULT holds a record: "a faulted block takes no
  further step" (R203, R109). Safe: the spec gives such a block no step. -/
  | quiescent
  deriving DecidableEq, Repr

/-- Why the model gives an instruction no meaning. -/
inductive Refusal where
  /-- An instruction of the table without a meaning yet, raised by its arm of exec; no arm raises it. Safe. -/
  | notModelled (mnemonic : String)
  deriving DecidableEq, Repr

/-- Power-on (R34, R220): INIT 0, FAULT none, TRACE empty, DRIVEN 0. NDEV, DIN, CLK and CS are unspecified there
and 0 here (DESIGN CHOICE, log 3); the buffer is unspecified there and lists nothing here (DESIGN CHOICE, log 4);
the devices' registers are unspecified (R183) and 0 here (DESIGN CHOICE, log 5). -/
def State.reset : State :=
  { cfg := Config.platform
    init := false
    ndev := 0
    buf := []
    din := false
    clk := false
    cs := false
    driven := false
    fault := none
    trace := []
    chain := List.replicate maxDevices Device.powerUp
    port := []
    latchPending := false
    latchPos := 0
    draws := 0 }

end Sys2Proof.Machine
end

