-- ==== Sys2Proof/Machine/Memory.lean ====
section
/-! DEFINITION. Reading and writing the cells of the Display Buffer by flat address, in one canonical form. -/

namespace Sys2Proof.Machine

/-- What a cell that is not listed reads as. DESIGN CHOICE (log 4), unsafe: R34 leaves every cell unspecified at
power-on. -/
def Memory.fill : Byte := 0x00

/-- The cell at address `a`. -/
def Memory.read : Memory → Nat → Byte
  | [], _ => Memory.fill
  | c :: m, a => if c.1 = a then c.2 else Memory.read m a

/-- The listing of one cell: none for a cell that holds what an unlisted one reads as. -/
def Memory.entry (a : Nat) (v : Byte) : Memory :=
  if v = Memory.fill then [] else [(a, v)]

/-- The listing of cell `a` put in its place by address. -/
def Memory.insert : Memory → Nat → Byte → Memory
  | [], a, v => Memory.entry a v
  | c :: m, a, v => if c.1 < a then c :: Memory.insert m a v else Memory.entry a v ++ c :: m

/-- `m` with cell `a` holding `v`: what was listed for `a` goes, its new listing takes its place. -/
def Memory.write (m : Memory) (a : Nat) (v : Byte) : Memory :=
  Memory.insert (m.filter fun c => c.1 != a) a v

/-- Cells listed from address `lo` on, strictly rising, none listed at the fill value. -/
def Memory.wfFrom : Nat → Memory → Bool
  | _, [] => true
  | lo, c :: m => lo ≤ c.1 && c.2 != Memory.fill && Memory.wfFrom (c.1 + 1) m

/-- The canonical form: equal buffers are equal lists. -/
def Memory.wf (m : Memory) : Bool := Memory.wfFrom 0 m

end Sys2Proof.Machine
end

