-- ==== Sys2Proof/WellFormed.lean ====
section
/-! DEFINITION. Which instructions have an encoding: the conditions of R83 and of the 16-bit length field that
the constructors' types do not already impose. -/

namespace Sys2Proof

/-- The register addresses a bus command may not name (R83). -/
def reservedAddr (a : Addr) : Bool := a == 0xD || a == 0xE

/-- `i` has an encoding. The must-be-zero fields of R82 have no place in the constructors, so two checks are left:
a bus command's register address (R83), and a text's length, which is the 16-bit `arg` (R80). -/
def Instr.wf : Instr → Bool
  | .begin _ => true
  | .busBroadcast reg _ => !reservedAddr reg
  | .busTargeted _ reg _ => !reservedAddr reg
  | .renderDigit _ _ => true
  | .renderLetter _ _ => true
  | .renderText text => text.length < 65536
  | .clearDevice _ => true
  | .setColon _ _ => true
  | .setDecimal _ _ => true
  | .setDegree _ _ => true
  | .clearAllIndicators => true
  | .refresh => true
  | .clearDisplay => true
  | .noop _ => true
  | .digit0 _ => true
  | .digit1 _ => true
  | .digit2 _ => true
  | .digit3 _ => true
  | .digit4 _ => true
  | .digit5 _ => true
  | .digit6 _ => true
  | .digit7 _ => true
  | .decodeMode _ => true
  | .intensity _ => true
  | .scanLimit _ => true
  | .shutdown _ => true
  | .displayTest _ => true

end Sys2Proof
end

