-- ==== Sys2Proof/Decode.lean ====
section
/-! DEFINITION. The decoder of the command port and of a device's shift register, and after it the encoder, both
written from the tables of 30_encoding.md. -/

namespace Sys2Proof

/-- The four fields of a command word (R76). -/
structure CmdFields where
  op : BitVec 4
  dev : Byte
  reg : Addr
  arg : BitVec 16
  deriving DecidableEq, Repr, Inhabited

/-- `op = w[31:28]`, `dev = w[27:20]`, `reg = w[19:16]`, `arg = w[15:0]` (R76, R78). -/
def CmdFields.ofWord (w : Word) : CmdFields :=
  { op := w.extractLsb' 28 4, dev := w.extractLsb' 20 8, reg := w.extractLsb' 16 4, arg := w.extractLsb' 0 16 }

/-- The word with these fields (R76). -/
def CmdFields.toWord (f : CmdFields) : Word := (f.op ++ f.dev) ++ (f.reg ++ f.arg)

/-- `arg[15:8]` (R77). -/
def CmdFields.argHigh (f : CmdFields) : Byte := f.arg.extractLsb' 8 8

/-- `arg[7:0]`: a data byte or a character (R79). -/
def CmdFields.argLow (f : CmdFields) : Byte := f.arg.extractLsb' 0 8

/-- The four bytes of a command word on the port. DESIGN CHOICE (log 1), safe: most significant byte first. -/
def wordBytes (w : Word) : List Byte :=
  [w.extractLsb' 24 8, w.extractLsb' 16 8, w.extractLsb' 8 8, w.extractLsb' 0 8]

/-- The command word of four port bytes, most significant first (log 1). -/
def joinWord (b3 b2 b1 b0 : Byte) : Word := (b3 ++ b2) ++ (b1 ++ b0)

/-- Why bits are no instruction, by name. -/
inductive DecodeError where
  /-- Fewer than four bytes are on the port: the block waits for the rest of the word (R80). -/
  | incompleteWord
  /-- Fewer payload bytes follow the word than belong to it: the block waits for the rest (R80). -/
  | incompletePayload
  /-- `op` is 0xD, 0xE or 0xF (R81). -/
  | reservedOp (w : Word)
  /-- A must-be-zero field is not zero (R82). -/
  | mustBeZero (w : Word)
  /-- A bus command names register 0xD or 0xE (R83). -/
  | reservedRegister (w : Word)
  /-- Bits 15:12 of a frame are not zero (R71). -/
  | frameNibble (f : FrameWord)
  /-- A frame's address is 0xD or 0xE (R85, R181). -/
  | frameAddress (f : FrameWord)
  deriving DecidableEq, Repr

/-- What a decoder of the command port answers: the command and the bytes after it. -/
abbrev Decoded := Except DecodeError (Instr × List Byte)

/-- How many payload bytes belong to the command of word `w`: `arg` of them if `op` is 0x5, whatever its other fields
hold, and none otherwise (R80). -/
def payloadLength (w : Word) : Nat :=
  if (CmdFields.ofWord w).op = 0x5 then (CmdFields.ofWord w).arg.toNat else 0

/-- A command whose must-be-zero fields are zero (`zeros`) is accepted; otherwise R82. -/
def requireZeros (w : Word) (zeros : Bool) (i : Instr) : Except DecodeError Instr :=
  if zeros then .ok i else .error (.mustBeZero w)

/-- A bus command: must-be-zero fields (R82) and a register address that is not reserved (R83). -/
def requireBus (w : Word) (zeros : Bool) (reg : Addr) (i : Instr) : Except DecodeError Instr :=
  if zeros then
    if reg == 0xD || reg == 0xE then .error (.reservedRegister w) else .ok i
  else .error (.mustBeZero w)

/-- The command of word `w` (R77, R79); `text` is its payload. -/
def decodeWord (w : Word) (text : List Byte) : Except DecodeError Instr :=
  let f := CmdFields.ofWord w
  match f.op with
  | 0x0 => requireZeros w (f.reg == 0 && f.arg == 0) (.begin f.dev)
  | 0x1 => requireBus w (f.dev == 0 && f.argHigh == 0) f.reg (.busBroadcast f.reg f.argLow)
  | 0x2 => requireBus w (f.argHigh == 0) f.reg (.busTargeted f.dev f.reg f.argLow)
  | 0x3 => requireZeros w (f.reg == 0) (.renderDigit f.dev f.arg)
  | 0x4 => requireZeros w (f.reg == 0 && f.argHigh == 0) (.renderLetter f.dev f.argLow)
  | 0x5 => requireZeros w (f.dev == 0 && f.reg == 0) (.renderText text)
  | 0x6 => requireZeros w (f.reg == 0 && f.arg == 0) (.clearDevice f.dev)
  | 0x7 => requireZeros w (f.reg == 0 && f.arg.extractLsb' 1 15 == 0) (.setColon f.dev (f.arg.getLsbD 0))
  | 0x8 => requireZeros w (f.reg == 0 && f.arg.extractLsb' 1 15 == 0) (.setDecimal f.dev (f.arg.getLsbD 0))
  | 0x9 => requireZeros w (f.reg == 0 && f.arg.extractLsb' 1 15 == 0) (.setDegree f.dev (f.arg.getLsbD 0))
  | 0xA => requireZeros w (f.dev == 0 && f.reg == 0 && f.arg == 0) .clearAllIndicators
  | 0xB => requireZeros w (f.dev == 0 && f.reg == 0 && f.arg == 0) .refresh
  | 0xC => requireZeros w (f.dev == 0 && f.reg == 0 && f.arg == 0) .clearDisplay
  | _ => .error (.reservedOp w)

/-- The whole command of word `w`, with `rest` after the word on the port: its payload is read first (R80), and only
then is it accepted or found illegal. -/
def decodeCommand (w : Word) (rest : List Byte) : Decoded :=
  if rest.length < payloadLength w then .error .incompletePayload
  else (decodeWord w (rest.take (payloadLength w))).map fun i => (i, rest.drop (payloadLength w))

/-- The first command on the port and the bytes after it (R80): one word, then its payload. -/
def decode : List Byte → Decoded
  | b3 :: b2 :: b1 :: b0 :: rest => decodeCommand (joinWord b3 b2 b1 b0) rest
  | _ => .error .incompleteWord

/-- The frame address field `f[11:8]` (R71, R173). -/
def frameAddr (f : FrameWord) : Addr := f.extractLsb' 8 4

/-- The frame data field `f[7:0]` (R71, R173). -/
def frameData (f : FrameWord) : Byte := f.extractLsb' 0 8

/-- The frame kind of an address (R84), or none for 0xD and 0xE (R85). -/
def frameKind (addr : Addr) (data : Byte) : Option Instr :=
  match addr with
  | 0x0 => some (.noop data)
  | 0x1 => some (.digit0 data)
  | 0x2 => some (.digit1 data)
  | 0x3 => some (.digit2 data)
  | 0x4 => some (.digit3 data)
  | 0x5 => some (.digit4 data)
  | 0x6 => some (.digit5 data)
  | 0x7 => some (.digit6 data)
  | 0x8 => some (.digit7 data)
  | 0x9 => some (.decodeMode data)
  | 0xA => some (.intensity data)
  | 0xB => some (.scanLimit data)
  | 0xC => some (.shutdown data)
  | 0xF => some (.displayTest data)
  | _ => none

/-- The frame of sixteen bits as the block emits it: bits 15:12 are 0 (R71, and the table's mask 0xFF00). -/
def decodeFrame (f : FrameWord) : Except DecodeError Instr :=
  if f.extractLsb' 12 4 == 0 then
    match frameKind (frameAddr f) (frameData f) with
    | some i => .ok i
    | none => .error (.frameAddress f)
  else .error (.frameNibble f)

/-- The table numbers an instruction's bits from the least significant bit of its first word. A 16-bit row is a
frame, a 32-bit row a command word, whose payload bytes (the bits above the row's) are zeros. -/
def decodeTableWord (nbits w : Nat) : Option Instr :=
  if 2 ^ nbits ≤ w then none
  else if nbits ≤ 16 then
    match decodeFrame (BitVec.ofNat 16 w) with
    | .ok i => some i
    | .error _ => none
  else
    match decode (wordBytes (BitVec.ofNat 32 w) ++ List.replicate (w % 65536) 0) with
    | .ok (i, _) => some i
    | .error _ => none

/-! ### The encoder -/

/-- The fields of a command's word, and none for a frame (R77, R79). -/
def commandFields : Instr → Option CmdFields
  | .begin n => some { op := 0x0, dev := n, reg := 0, arg := 0 }
  | .busBroadcast reg data => some { op := 0x1, dev := 0, reg := reg, arg := (0#8 ++ data) }
  | .busTargeted dev reg data => some { op := 0x2, dev := dev, reg := reg, arg := (0#8 ++ data) }
  | .renderDigit dev arg => some { op := 0x3, dev := dev, reg := 0, arg := arg }
  | .renderLetter dev letter => some { op := 0x4, dev := dev, reg := 0, arg := (0#8 ++ letter) }
  | .renderText text => some { op := 0x5, dev := 0, reg := 0, arg := BitVec.ofNat 16 text.length }
  | .clearDevice dev => some { op := 0x6, dev := dev, reg := 0, arg := 0 }
  | .setColon dev on => some { op := 0x7, dev := dev, reg := 0, arg := (0#15 ++ BitVec.ofBool on) }
  | .setDecimal dev on => some { op := 0x8, dev := dev, reg := 0, arg := (0#15 ++ BitVec.ofBool on) }
  | .setDegree dev on => some { op := 0x9, dev := dev, reg := 0, arg := (0#15 ++ BitVec.ofBool on) }
  | .clearAllIndicators => some { op := 0xA, dev := 0, reg := 0, arg := 0 }
  | .refresh => some { op := 0xB, dev := 0, reg := 0, arg := 0 }
  | .clearDisplay => some { op := 0xC, dev := 0, reg := 0, arg := 0 }
  | .noop _ | .digit0 _ | .digit1 _ | .digit2 _ | .digit3 _ | .digit4 _ | .digit5 _ | .digit6 _ | .digit7 _
  | .decodeMode _ | .intensity _ | .scanLimit _ | .shutdown _ | .displayTest _ => none

/-- The address and data of a frame, and none for a command (R84). -/
def frameFields : Instr → Option Frame
  | .noop data => some { addr := 0x0, data := data }
  | .digit0 data => some { addr := 0x1, data := data }
  | .digit1 data => some { addr := 0x2, data := data }
  | .digit2 data => some { addr := 0x3, data := data }
  | .digit3 data => some { addr := 0x4, data := data }
  | .digit4 data => some { addr := 0x5, data := data }
  | .digit5 data => some { addr := 0x6, data := data }
  | .digit6 data => some { addr := 0x7, data := data }
  | .digit7 data => some { addr := 0x8, data := data }
  | .decodeMode data => some { addr := 0x9, data := data }
  | .intensity data => some { addr := 0xA, data := data }
  | .scanLimit data => some { addr := 0xB, data := data }
  | .shutdown data => some { addr := 0xC, data := data }
  | .displayTest data => some { addr := 0xF, data := data }
  | .begin _ | .busBroadcast _ _ | .busTargeted _ _ _ | .renderDigit _ _ | .renderLetter _ _ | .renderText _
  | .clearDevice _ | .setColon _ _ | .setDecimal _ _ | .setDegree _ _ | .clearAllIndicators | .refresh
  | .clearDisplay => none

/-- The payload bytes after the command word: only RENDER_TEXT has any (R80). -/
def payload : Instr → List Byte
  | .renderText text => text
  | .begin _ | .busBroadcast _ _ | .busTargeted _ _ _ | .renderDigit _ _ | .renderLetter _ _
  | .clearDevice _ | .setColon _ _ | .setDecimal _ _ | .setDegree _ _ | .clearAllIndicators | .refresh
  | .clearDisplay | .noop _ | .digit0 _ | .digit1 _ | .digit2 _ | .digit3 _ | .digit4 _ | .digit5 _ | .digit6 _
  | .digit7 _ | .decodeMode _ | .intensity _ | .scanLimit _ | .shutdown _ | .displayTest _ => []

/-- The command word of `i` (R76); of a frame, which has none, the zero word. -/
def commandWord (i : Instr) : Word :=
  match commandFields i with
  | some f => f.toWord
  | none => 0

/-- The sixteen bits `{0000, addr, data}` of a frame (R71). -/
def Frame.word (f : Frame) : FrameWord := (0#4 ++ f.addr) ++ f.data

/-- The frame a device must hold to latch `i`, and none for a command. -/
def frameWordOf (i : Instr) : Option FrameWord :=
  match frameFields i with
  | some f => some f.word
  | none => none

/-- The bytes of `i`: a command's four word bytes and payload as they come on the port, a frame's register byte
and data byte as they go on the wire (R71, R76, R80). -/
def encode (i : Instr) : List Byte :=
  match frameFields i with
  | some f => [0#4 ++ f.addr, f.data]
  | none => wordBytes (commandWord i) ++ payload i

end Sys2Proof
end

