-- ==== Sys2Proof/Machine/Observer.lean ====
section
/-! DEFINITION. The device chain: what a device does with each frame kind, how the chain shifts and latches, and what
a device shows (43_device_frames.md). -/

namespace Sys2Proof.Machine

/-! ### One device, one frame kind -/

/-- NOOP: no device register changes (R174). -/
def Device.latchNoop (_data : Byte) (d : Device) : Device := d

/-- DIGITk: `DIGIT[k] <- data` (R175). -/
def Device.latchDigit (k : Fin 8) (data : Byte) (d : Device) : Device := { d with digits := d.digits.set k data }

/-- DECODE_MODE: `DECODE <- data` (R176). -/
def Device.latchDecodeMode (data : Byte) (d : Device) : Device := { d with decode := data }

/-- INTENSITY: `INTENSITY <- data[3:0]` (R177). -/
def Device.latchIntensity (data : Byte) (d : Device) : Device := { d with intensity := data.extractLsb' 0 4 }

/-- SCAN_LIMIT: `SCANLIMIT <- data[2:0]` (R178). -/
def Device.latchScanLimit (data : Byte) (d : Device) : Device := { d with scanLimit := data.extractLsb' 0 3 }

/-- SHUTDOWN: `SHUTDOWN <- data[0]` (R179). -/
def Device.latchShutdown (data : Byte) (d : Device) : Device := { d with shutdown := data.extractLsb' 0 1 }

/-- DISPLAY_TEST: `TEST <- data[0]` (R180). -/
def Device.latchDisplayTest (data : Byte) (d : Device) : Device := { d with test := data.extractLsb' 0 1 }

/-- Latching address 0xD or 0xE leaves any device state: the free value `free` (R181, log 9). -/
def addrUnspecified (addr : Addr) : Bool := addr == 0xD || addr == 0xE

/-- The rule of the frame's address, one row of R84 each. -/
def Device.apply (addr : Addr) (data : Byte) (free : Device) (d : Device) : Device :=
  match addr with
  | 0x0 => Device.latchNoop data d
  | 0x1 => Device.latchDigit 0 data d
  | 0x2 => Device.latchDigit 1 data d
  | 0x3 => Device.latchDigit 2 data d
  | 0x4 => Device.latchDigit 3 data d
  | 0x5 => Device.latchDigit 4 data d
  | 0x6 => Device.latchDigit 5 data d
  | 0x7 => Device.latchDigit 6 data d
  | 0x8 => Device.latchDigit 7 data d
  | 0x9 => Device.latchDecodeMode data d
  | 0xA => Device.latchIntensity data d
  | 0xB => Device.latchScanLimit data d
  | 0xC => Device.latchShutdown data d
  | 0xF => Device.latchDisplayTest data d
  | _ => free

/-- A device decodes its own shift register as a frame, `SR[15:12]` ignored, and applies the rule of its address
(R173). -/
def Device.latch (free : Device) (d : Device) : Device :=
  Device.apply (frameAddr d.sr) (frameData d.sr) free d

/-! ### The chain -/

/-- A device shifts left by one, taking `b` as its new bit 0 (R172). -/
def Device.shift (b : Bool) (d : Device) : Device :=
  { d with sr := (d.sr <<< 1) ||| (BitVec.ofBool b).setWidth 16 }

/-- The first `n` devices shift by one: each takes the old bit 15 of the one before it, the first takes `b`
(R172). -/
def chainShift : Nat → Bool → List Device → List Device
  | n + 1, b, d :: ds => Device.shift b d :: chainShift n (d.sr.getLsbD 15) ds
  | _, _, ds => ds

/-- The first `n` devices latch together (R173). -/
def chainLatch (n draw : Nat) (ds : List Device) : List Device :=
  ds.mapIdx fun p d => if p < n then Device.latch (Config.freeDevice draw p) d else d

/-- One of the first `n` devices is about to latch an address of unspecified effect (R181). -/
def chainUnspecified (n : Nat) (ds : List Device) : Bool :=
  (ds.take n).any fun d => addrUnspecified (frameAddr d.sr)

/-! ### What a device shows -/

/-- What one LED row of a device shows (R184). -/
inductive Shown where
  /-- The row shows this pattern. -/
  | pattern (b : Byte)
  /-- Display test: every LED lit. -/
  | allLit
  /-- Shutdown: nothing lit. -/
  | dark
  /-- A combination R184 leaves unspecified (U15); no pattern is claimed (log 17). -/
  | unspecified
  deriving DecidableEq, Repr

/-- The displayed image of row `k` (R184). -/
def Device.shown (d : Device) (k : Fin 8) : Shown :=
  if d.test = 1 then .allLit
  else if d.shutdown = 0 then .dark
  else if d.decode = 0x00 ∧ k.val ≤ d.scanLimit.toNat then .pattern d.digits[k]
  else .unspecified

end Sys2Proof.Machine
end

