-- ==== Sys2Proof/Machine/Ops.lean ====
section
/-! DEFINITION. The shared operations: buffer cells, wire events, transactions, the two ways a command ends early
(`ignore` and `raise`), and the prologue every command runs. -/

namespace Sys2Proof.Machine

/-- What a meaning answers. -/
abbrev Result := Host.Outcome State Fault Refusal

/-- `N`, read from NDEV (R8). -/
def State.count (s : State) : Nat := s.ndev.toNat

/-! ### The Display Buffer -/

/-- The flat address of cell `(d, r)`: `8*d + r` (R50, D27). -/
def cellAddr (d r : Nat) : Nat := rows * d + r

/-- `buf[d][r]` (R11). -/
def State.cell (s : State) (d r : Nat) : Byte := s.buf.read (cellAddr d r)

/-- `buf[d][r] <- v` (R11). -/
def State.setCell (d r : Nat) (v : Byte) (s : State) : State := { s with buf := s.buf.write (cellAddr d r) v }

/-- Writes `vs` into the rows of device `d` from row `r` on, in order. -/
def State.setRowsFrom (d r : Nat) : List Byte → State → State
  | [], s => s
  | v :: vs, s => State.setRowsFrom d (r + 1) vs (s.setCell d r v)

/-- Writes `vs` into the rows of device `d` from row 0 on, in order. -/
def State.setRows (d : Nat) (vs : List Byte) (s : State) : State := State.setRowsFrom d 0 vs s

/-- For each device `d` of `0..n-1` in order: rows `content d` into it. -/
def State.fillDevices (n : Nat) (content : Nat → List Byte) (s : State) : State :=
  (List.range n).foldl (fun s d => s.setRows d (content d)) s

/-- The eight zero rows that `ClearCells` writes (R125, R127). -/
def blankRows : List Byte := List.replicate rows 0x00

/-! ### The wires -/

/-- `DIN <- b` (R100). -/
def State.driveData (b : Bool) (s : State) : State := { s with din := b }

/-- `CLK <- 1`: on the rising edge every device shifts, the first taking the level of DIN (R100, R172). -/
def State.clockRise (s : State) : State := { s with clk := true, chain := chainShift s.count s.din s.chain }

/-- `CLK <- 0` (R100). -/
def State.clockFall (s : State) : State := { s with clk := false }

/-- `TRACE <- TRACE ++ [e]` (R11, R27). -/
def State.record (e : WireEvent) (s : State) : State := { s with trace := s.trace ++ [e] }

/-- `CS <- 0` (R102). -/
def State.selectChip (s : State) : State := { s with cs := false }

/-- `CS <- 1`: every device of the chain latches (R102, R173). A draw of free values is used up only where a device
latches an address of unspecified effect (R181, log 9). -/
def State.releaseChip (s : State) : State :=
  { s with
    cs := true
    chain := chainLatch s.count s.draws s.chain
    draws := if chainUnspecified s.count s.chain then s.draws + 1 else s.draws }

/-- `emit(e)`: appends the event to TRACE and drives the ports (R11, R100, R102). -/
def State.emit (s : State) (e : WireEvent) : State :=
  match e with
  | .csLow => (s.record .csLow).selectChip
  | .csHigh => (s.record .csHigh).releaseChip
  | .bit b => (((s.record (.bit b)).driveData b).clockRise).clockFall

/-- The events in order. -/
def State.emitAll (s : State) (es : List WireEvent) : State := es.foldl State.emit s

/-- The sixteen bits of a frame word, bit 15 first (R72, R101). -/
def frameBits (f : FrameWord) : List Bool := (List.range 16).reverse.map f.getLsbD

/-- `ShiftFrame(addr, data)` (R101). -/
def Frame.events (f : Frame) : List WireEvent := (frameBits f.word).map .bit

/-- The events of `Transaction(F)`: `CS_LOW`, the frames in list order, `CS_HIGH` (R73, R102). -/
def transactionEvents (fs : List Frame) : List WireEvent :=
  [.csLow] ++ fs.flatMap Frame.events ++ [.csHigh]

/-- `Transaction(F)` (R102). -/
def State.transaction (s : State) (fs : List Frame) : State := s.emitAll (transactionEvents fs)

/-- `DevAt(j) = N - 1 - j`: the device whose frame is in slot `j` (R106, conflict C1). -/
def devAt (n j : Nat) : Nat := n - 1 - j

/-- `Slot(d) = N - 1 - d`: the send-order position of device `d`'s frame (R106). -/
def slot (n d : Nat) : Nat := n - 1 - d

/-- The chain order: the devices in the order their frames are sent (R106, R55). -/
def chainOrder (n : Nat) : List Nat := (List.range n).map (devAt n)

/-- A transaction that carries frame `f d` for each device `d` (R108). -/
def framesFor (n : Nat) (f : Nat → Frame) : List Frame := (chainOrder n).map f

/-! ### Ending a command -/

/-- `ignore`: the command ends with nothing changed (R11, R201). -/
def State.ignore (s : State) : Result := .next s

/-- `raise F(info)`: taking a fault. FAULT records it and nothing else changes (R203). -/
def State.raise (f : FaultRecord) (s : State) : Result := .next { s with fault := some f }

/-- The prologue every command runs before its own rule, in this order (R109, R204): a faulted block takes no step;
an illegal command raises IllegalCommand; with INIT = 0 every command but BEGIN (`op` 0x0) raises NotInitialized. -/
def State.runCommand (i : Instr) (op : BitVec 4) (body : State → Result) (s : State) : Result :=
  if s.fault.isSome then .fault .quiescent
  else if !i.wf then s.raise (.illegalCommand (commandWord i))
  else if op != 0x0 && !s.init then s.raise (.notInitialized op)
  else body s

/-- The device guard: `ignore` unless `ValidDev(d) = (d < N)` (R122). -/
def State.guardDevice (dev : Byte) (body : State → Result) (s : State) : Result :=
  if dev.toNat < s.count then body s else s.ignore

/-! ### A device's latch as a step of its own (log 8) -/

/-- The pending latch is done. -/
def State.endLatch (s : State) : State := { s with latchPending := false }

/-- The device at `latchPos` becomes `f` of what it was; nothing else changes. -/
def State.latchWith (f : Device → Device) (s : State) : State :=
  ({ s with chain := s.chain.modify s.latchPos f }).endLatch

/-- The device at `latchPos` latches an address of unspecified effect: any device state (R181, log 9). -/
def State.latchUnspecified (s : State) : State :=
  { s.latchWith (fun _ => Config.freeDevice s.draws s.latchPos) with draws := s.draws + 1 }

end Sys2Proof.Machine
end

