-- ==== Sys2Proof/Machine/Frames.lean ====
section
/-! DEFINITION. The fourteen frame kinds: what the device at `latchPos` does when it latches each (R174-R180). The
devices are outside the block, so no prologue runs and FAULT plays no part (log 13). -/

namespace Sys2Proof.Machine

/-- NOOP (R174). -/
def execNoop (data : Byte) (s : State) : Result := .next (s.latchWith (Device.latchNoop data))

/-- DIGIT0 (R175). -/
def execDigit0 (data : Byte) (s : State) : Result := .next (s.latchWith (Device.latchDigit 0 data))

/-- DIGIT1 (R175). -/
def execDigit1 (data : Byte) (s : State) : Result := .next (s.latchWith (Device.latchDigit 1 data))

/-- DIGIT2 (R175). -/
def execDigit2 (data : Byte) (s : State) : Result := .next (s.latchWith (Device.latchDigit 2 data))

/-- DIGIT3 (R175). -/
def execDigit3 (data : Byte) (s : State) : Result := .next (s.latchWith (Device.latchDigit 3 data))

/-- DIGIT4 (R175). -/
def execDigit4 (data : Byte) (s : State) : Result := .next (s.latchWith (Device.latchDigit 4 data))

/-- DIGIT5 (R175). -/
def execDigit5 (data : Byte) (s : State) : Result := .next (s.latchWith (Device.latchDigit 5 data))

/-- DIGIT6 (R175). -/
def execDigit6 (data : Byte) (s : State) : Result := .next (s.latchWith (Device.latchDigit 6 data))

/-- DIGIT7 (R175). -/
def execDigit7 (data : Byte) (s : State) : Result := .next (s.latchWith (Device.latchDigit 7 data))

/-- DECODE_MODE (R176). -/
def execDecodeMode (data : Byte) (s : State) : Result := .next (s.latchWith (Device.latchDecodeMode data))

/-- INTENSITY (R177). -/
def execIntensity (data : Byte) (s : State) : Result := .next (s.latchWith (Device.latchIntensity data))

/-- SCAN_LIMIT (R178). -/
def execScanLimit (data : Byte) (s : State) : Result := .next (s.latchWith (Device.latchScanLimit data))

/-- SHUTDOWN (R179). -/
def execShutdown (data : Byte) (s : State) : Result := .next (s.latchWith (Device.latchShutdown data))

/-- DISPLAY_TEST (R180). -/
def execDisplayTest (data : Byte) (s : State) : Result := .next (s.latchWith (Device.latchDisplayTest data))

end Sys2Proof.Machine
end

