-- ==== Sys2Proof/Machine/Operands.lean ====
section
/-! DEFINITION. The operand forms of the buffer commands: the signed number, characters and their folding, the font
lookup, and the eight rows a glyph or a character gives a device. -/

namespace Sys2Proof.Machine

/-- `number = sext_16(arg)` (R79). -/
def signedNumber (arg : BitVec 16) : Int := arg.toInt

/-- `number` is a digit value, 0 to 9 (R123). -/
def isDigitValue (number : Int) : Bool := !(decide (number < 0) || decide (9 < number))

/-- Folds a-z to A-Z and nothing else (R124, D17). -/
def foldLetter (ch : Byte) : Byte := if 0x61 ≤ ch ∧ ch ≤ 0x7A then ch - 0x20 else ch

/-- A letter A-Z after folding (R124). -/
def isUpper (u : Byte) : Bool := 0x41 ≤ u && u ≤ 0x5A

/-- A digit character (R126). -/
def isDigitChar (ch : Byte) : Bool := 0x30 ≤ ch && ch ≤ 0x39

/-- A letter character, upper or lower case (R126). -/
def isLetterChar (ch : Byte) : Bool := (0x41 ≤ ch && ch ≤ 0x5A) || (0x61 ≤ ch && ch ≤ 0x7A)

/-- A glyph with no pixel: only the default of a lookup that no rule makes (R120). -/
def noGlyph : Glyph := Vector.replicate 7 0

/-- `FONT_DIGIT(d, ·, ·)`, read only with `d` in 0..9 (R9, R120). -/
def digitGlyph (cfg : Config) (d : Nat) : Glyph := cfg.fontDigit[d]?.getD noGlyph

/-- `FONT_LETTER(l, ·, ·)`, read only with `l` in 0..25 (R9, R120). -/
def letterGlyph (cfg : Config) (l : Nat) : Glyph := cfg.fontLetter[l]?.getD noGlyph

/-- `P(r, c)`: the pixel of font row `r`, column `c` (R9). -/
def glyphPixel (p : Glyph) (r c : Nat) : Bool := (p[r]?.getD 0).getLsbD c

/-- `GLYPH_SHIFT`: glyph pixels stand two columns to the right (R7, R121). -/
def glyphShift : Nat := 2

/-- `GlyphRow(P, r)`: the OR over font columns `c` of `1 << (c + 2)` where the pixel is set (R121). -/
def glyphRow (p : Glyph) (r : Nat) : Byte :=
  (List.range 5).foldl (fun acc c => acc ||| (if glyphPixel p r c then (1 : Byte) <<< (c + glyphShift) else 0)) 0

/-- The eight rows of `RenderGlyph`: font rows 0 to 6, then row 7 cleared (R121). -/
def glyphRows (p : Glyph) : List Byte := (List.range 7).map (glyphRow p) ++ [0x00]

/-- The rows of a letter, upper case after folding (R124). -/
def letterRows (cfg : Config) (ch : Byte) : List Byte := glyphRows (letterGlyph cfg (foldLetter ch - 0x41).toNat)

/-- The rows of a digit character (R125). -/
def digitCharRows (cfg : Config) (ch : Byte) : List Byte := glyphRows (digitGlyph cfg (ch - 0x30).toNat)

/-- The rows RENDER_TEXT gives one device: no character left, a space or any other character clears it (R125, R126). -/
def charRows (cfg : Config) : Option Byte → List Byte
  | none => blankRows
  | some ch =>
    if isDigitChar ch then digitCharRows cfg ch
    else if isLetterChar ch then letterRows cfg ch
    else blankRows

/-- The effective text `t[0..K-1]`: up to the first 0x00 byte (R125, D18). -/
def effectiveText (t : List Byte) : List Byte := t.takeWhile (· != 0x00)

end Sys2Proof.Machine
end

