-- ==== Sys2Proof/Machine/Glyph.lean ====
section
/-! DEFINITION. The glyph commands RENDER_DIGIT, RENDER_LETTER and RENDER_TEXT (41_buffer_glyph.md). -/

namespace Sys2Proof.Machine

/-- `RenderGlyph(d, P)`: rows 0-6 replaced by the glyph's rows, row 7 cleared (R121, conflict C4). -/
def State.renderGlyph (d : Nat) (p : Glyph) (s : State) : State := s.setRows d (glyphRows p)

/-- RENDER_DIGIT dev, number (R123). -/
def execRenderDigit (dev : Byte) (arg : BitVec 16) (s : State) : Result :=
  s.runCommand (.renderDigit dev arg) 0x3 <| State.guardDevice dev fun s =>
    if isDigitValue (signedNumber arg) then
      .next (s.renderGlyph dev.toNat (digitGlyph s.cfg (signedNumber arg).toNat))
    else s.ignore

/-- RENDER_LETTER dev, letter (R124). -/
def execRenderLetter (dev : Byte) (letter : Byte) (s : State) : Result :=
  s.runCommand (.renderLetter dev letter) 0x4 <| State.guardDevice dev fun s =>
    if isUpper (foldLetter letter) then
      .next (s.renderGlyph dev.toNat (letterGlyph s.cfg (foldLetter letter - 0x41).toNat))
    else s.ignore

/-- RENDER_TEXT "text": one character of the effective text for each device, the devices past its end cleared
(R125). -/
def execRenderText (text : List Byte) (s : State) : Result :=
  s.runCommand (.renderText text) 0x5 fun s =>
    .next (s.fillDevices s.count fun d => charRows s.cfg (effectiveText text)[d]?)

end Sys2Proof.Machine
end

