-- ==== Sys2Proof/Machine/Flags.lean ====
section
/-! DEFINITION. The block has no status flags and no condition codes (R29). Its only single-bit updates are the two
indicator bits of row 7, computed here, and the degree overlay of rows 0 and 1. -/

namespace Sys2Proof.Machine

/-- The row of the indicator bits (R24). -/
def indicatorRow : Nat := 7

/-- Row 7 after SET_COLON: bit 1 set or cleared, the others kept (R128). -/
def colonCell (on : Bool) (cell : Byte) : Byte := if on then cell ||| 0x02 else cell &&& 0xFD

/-- Row 7 after SET_DECIMAL: bit 7 set or cleared, the others kept (R129). -/
def decimalCell (on : Bool) (cell : Byte) : Byte := if on then cell ||| 0x80 else cell &&& 0x7F

/-- Rows 0 and 1 after SET_DEGREE: the degree pattern, or zero (R130). -/
def degreeRows (cfg : Config) (on : Bool) : List Byte := if on then [cfg.degRow0, cfg.degRow1] else [0x00, 0x00]

end Sys2Proof.Machine
end

