-- ==== Sys2Proof/Machine/Indicators.lean ====
section
/-! DEFINITION. The clear and indicator commands (41_buffer_glyph.md section 3). -/

namespace Sys2Proof.Machine

/-- `ClearCells(d)`: all eight rows of device `d` zero (R125, R127). -/
def State.clearCells (d : Nat) (s : State) : State := s.setRows d blankRows

/-- CLEAR_DEVICE dev (R127). -/
def execClearDevice (dev : Byte) (s : State) : Result :=
  s.runCommand (.clearDevice dev) 0x6 <| State.guardDevice dev fun s => .next (s.clearCells dev.toNat)

/-- SET_COLON dev, on|off (R128). -/
def execSetColon (dev : Byte) (on : Bool) (s : State) : Result :=
  s.runCommand (.setColon dev on) 0x7 <| State.guardDevice dev fun s =>
    .next (s.setCell dev.toNat indicatorRow (colonCell on (s.cell dev.toNat indicatorRow)))

/-- SET_DECIMAL dev, on|off (R129). -/
def execSetDecimal (dev : Byte) (on : Bool) (s : State) : Result :=
  s.runCommand (.setDecimal dev on) 0x8 <| State.guardDevice dev fun s =>
    .next (s.setCell dev.toNat indicatorRow (decimalCell on (s.cell dev.toNat indicatorRow)))

/-- SET_DEGREE dev, on|off (R130). -/
def execSetDegree (dev : Byte) (on : Bool) (s : State) : Result :=
  s.runCommand (.setDegree dev on) 0x9 <| State.guardDevice dev fun s =>
    .next (s.setRows dev.toNat (degreeRows s.cfg on))

/-- Row 7 of every device `0..n-1` zero (R131). -/
def State.clearIndicators (n : Nat) (s : State) : State :=
  (List.range n).foldl (fun s d => s.setCell d indicatorRow 0x00) s

/-- CLEAR_ALL_INDICATORS (R131). -/
def execClearAllIndicators (s : State) : Result :=
  s.runCommand .clearAllIndicators 0xA fun s => .next (s.clearIndicators s.count)

end Sys2Proof.Machine
end

