-- ==== Sys2Proof/Machine/Bus.lean ====
section
/-! DEFINITION. The two bus commands (40_bus_protocol.md). -/

namespace Sys2Proof.Machine

/-- A broadcast: the same frame for every device, in one transaction (R103). -/
def State.broadcast (f : Frame) (s : State) : State := s.transaction (framesFor s.count fun _ => f)

/-- The frames of a targeted write: the frame in the target's slot, the no-op frame in every other (R104). -/
def targetedFrames (n target : Nat) (f : Frame) : List Frame :=
  framesFor n fun d => if d = target then f else Frame.noop

/-- BUS_BROADCAST reg, data (R103). -/
def execBusBroadcast (reg : Addr) (data : Byte) (s : State) : Result :=
  s.runCommand (.busBroadcast reg data) 0x1 fun s => .next (s.broadcast { addr := reg, data := data })

/-- BUS_TARGETED dev, reg, data (R104). -/
def execBusTargeted (dev : Byte) (reg : Addr) (data : Byte) (s : State) : Result :=
  s.runCommand (.busTargeted dev reg data) 0x2 fun s =>
    if s.count ≤ dev.toNat then s.raise (.badTarget dev)
    else .next (s.transaction (targetedFrames s.count dev.toNat { addr := reg, data := data }))

end Sys2Proof.Machine
end

