-- ==== Sys2Proof/Machine/Refresh.lean ====
section
/-! DEFINITION. The refresh driver and initialisation: REFRESH, CLEAR_DISPLAY and BEGIN (42_refresh_init.md). -/

namespace Sys2Proof.Machine

/-- `addr = r + 1`: the digit register of buffer row `r` (R74). -/
def rowAddr (r : Nat) : Addr := BitVec.ofNat 4 (r + 1)

/-- The frames of `RowTransaction(r)`: for each device its cell of row `r` (R105, R75). -/
def rowFrames (s : State) (r : Nat) : List Frame :=
  framesFor s.count fun d => { addr := rowAddr r, data := s.cell d r }

/-- `RowTransaction(r)` (R105). -/
def State.rowTransaction (s : State) (r : Nat) : State := s.transaction (rowFrames s r)

/-- The body of REFRESH: one row transaction for each row, 0 to 7 (R150). -/
def State.refreshAll (s : State) : State := (List.range rows).foldl State.rowTransaction s

/-- Every cell of devices `0..n-1` zero (R152, R153). -/
def State.clearBuffer (n : Nat) (s : State) : State := s.fillDevices n fun _ => blankRows

/-- REFRESH (R150). -/
def execRefresh (s : State) : Result :=
  s.runCommand .refresh 0xB fun s => .next s.refreshAll

/-- CLEAR_DISPLAY (R152). -/
def execClearDisplay (s : State) : Result :=
  s.runCommand .clearDisplay 0xC fun s => .next (s.clearBuffer s.count).refreshAll

/-- `InitSequence`: the six configuration writes of BEGIN, in order (R154). -/
def initSequence (cfg : Config) : List Frame :=
  [ { addr := 0xC, data := cfg.initShutdownFirst.setWidth 8 }
  , { addr := 0xF, data := 0x00 }
  , { addr := 0x9, data := 0x00 }
  , { addr := 0xB, data := 0x07 }
  , { addr := 0xA, data := cfg.initIntensity.setWidth 8 }
  , { addr := 0xC, data := 0x01 } ]

/-- Pin setup and idle level: `DRIVEN <- 1 ; DIN <- 0 ; CLK <- 0 ; CS <- 1`. It emits no wire event, so no device
shifts or latches (R153, log 18). -/
def State.pinSetup (s : State) : State := { s with driven := true, din := false, clk := false, cs := true }

/-- `NDEV <- N` (R153). -/
def State.setCount (n : Byte) (s : State) : State := { s with ndev := n }

/-- `INIT <- 1` (R153). -/
def State.markInit (s : State) : State := { s with init := true }

/-- The configuration writes, one broadcast each (R153, R154). -/
def State.configure (s : State) : State := (initSequence s.cfg).foldl (fun s f => s.broadcast f) s

/-- BEGIN n (R153). -/
def execBegin (n : Byte) (s : State) : Result :=
  s.runCommand (.begin n) 0x0 fun s =>
    if n.toNat < 1 then s.raise (.badDeviceCount n)
    else if s.cfg.nmax < n.toNat then s.raise (.badDeviceCount n)
    else .next (((s.pinSetup.setCount n).clearBuffer n.toNat).configure).markInit

end Sys2Proof.Machine
end

