-- ==== Sys2Proof/Machine/Dispatch.lean ====
section
/-! DEFINITION. One arm for each instruction: a direct call of its meaning. -/

namespace Sys2Proof.Machine

def exec (i : Instr) (s : State) : Host.Outcome State Fault Refusal :=
  match i with
  | .begin n => Sys2Proof.Machine.execBegin n s
  | .busBroadcast reg data => Sys2Proof.Machine.execBusBroadcast reg data s
  | .busTargeted dev reg data => Sys2Proof.Machine.execBusTargeted dev reg data s
  | .renderDigit dev arg => Sys2Proof.Machine.execRenderDigit dev arg s
  | .renderLetter dev letter => Sys2Proof.Machine.execRenderLetter dev letter s
  | .renderText text => Sys2Proof.Machine.execRenderText text s
  | .clearDevice dev => Sys2Proof.Machine.execClearDevice dev s
  | .setColon dev on => Sys2Proof.Machine.execSetColon dev on s
  | .setDecimal dev on => Sys2Proof.Machine.execSetDecimal dev on s
  | .setDegree dev on => Sys2Proof.Machine.execSetDegree dev on s
  | .clearAllIndicators => Sys2Proof.Machine.execClearAllIndicators s
  | .refresh => Sys2Proof.Machine.execRefresh s
  | .clearDisplay => Sys2Proof.Machine.execClearDisplay s
  | .noop data => Sys2Proof.Machine.execNoop data s
  | .digit0 data => Sys2Proof.Machine.execDigit0 data s
  | .digit1 data => Sys2Proof.Machine.execDigit1 data s
  | .digit2 data => Sys2Proof.Machine.execDigit2 data s
  | .digit3 data => Sys2Proof.Machine.execDigit3 data s
  | .digit4 data => Sys2Proof.Machine.execDigit4 data s
  | .digit5 data => Sys2Proof.Machine.execDigit5 data s
  | .digit6 data => Sys2Proof.Machine.execDigit6 data s
  | .digit7 data => Sys2Proof.Machine.execDigit7 data s
  | .decodeMode data => Sys2Proof.Machine.execDecodeMode data s
  | .intensity data => Sys2Proof.Machine.execIntensity data s
  | .scanLimit data => Sys2Proof.Machine.execScanLimit data s
  | .shutdown data => Sys2Proof.Machine.execShutdown data s
  | .displayTest data => Sys2Proof.Machine.execDisplayTest data s

end Sys2Proof.Machine
end

