-- ==== Sys2Proof/Machine/Fetch.lean ====
section
/-! DEFINITION. Where the next step comes from: a device's pending latch, or the command port; and how an
instruction's bits are placed there. -/

namespace Sys2Proof.Machine

/-- What the next step has before it. -/
inductive Fetched where
  /-- A device is about to latch this frame. -/
  | frame (i : Instr)
  /-- A device is about to latch an address of unspecified effect (R181). -/
  | unspecified
  /-- A latch is pending at a position that has no device. -/
  | noDevice
  /-- FAULT holds a record: no step (R109, R203). -/
  | quiescent
  /-- The port holds no whole command: the block waits (R220, R80; log 11). -/
  | waiting
  /-- An illegal command, all of it on the port: its word (R81-R83), and the port after it. -/
  | illegal (word : Word) (rest : List Byte)
  /-- A legal command, and the port after it. -/
  | command (i : Instr) (rest : List Byte)
  deriving DecidableEq, Repr

/-- A device decodes its shift register, `SR[15:12]` ignored (R173). -/
def fetchFrame (sr : FrameWord) : Fetched :=
  match frameKind (frameAddr sr) (frameData sr) with
  | some i => .frame i
  | none => .unspecified

/-- What is left of the port once the command of word `w` is taken: its four bytes and its payload (R80). -/
def portAfter (w : Word) (port : List Byte) : List Byte := port.drop (4 + payloadLength w)

/-- The block takes the first command of the port (R80, R81-R83), an illegal one whole like any other (log 12). -/
def fetchCommand (port : List Byte) : Fetched :=
  match decode port with
  | .ok (i, rest) => .command i rest
  | .error (.reservedOp w) => .illegal w (portAfter w port)
  | .error (.mustBeZero w) => .illegal w (portAfter w port)
  | .error (.reservedRegister w) => .illegal w (portAfter w port)
  | .error .incompleteWord => .waiting
  | .error .incompletePayload => .waiting
  | .error (.frameNibble _) => .waiting
  | .error (.frameAddress _) => .waiting

/-- A pending latch comes first: the devices latch at the chip-select edge, before another command (R62, log 13). -/
def fetch (s : State) : Fetched :=
  if s.latchPending then
    match s.chain[s.latchPos]? with
    | some d => fetchFrame d.sr
    | none => .noDevice
  else if s.fault.isSome then .quiescent
  else fetchCommand s.port

/-- The frame `f` in device 0's shift register, about to be latched (log 8). -/
def State.placeFrame (f : FrameWord) (s : State) : State :=
  { s with
    chain := s.chain.modify 0 fun d => { d with sr := f }
    latchPending := true
    latchPos := 0 }

/-- The bytes on the command port, with nothing before them. -/
def State.placeCommand (bytes : List Byte) (s : State) : State := { s with port := bytes, latchPending := false }

/-- The port bytes of the 32-bit row word `w`, its payload bytes zeros. -/
def tableBytes (w : Nat) : List Byte :=
  wordBytes (BitVec.ofNat 32 w) ++ if (BitVec.ofNat 32 w).extractLsb' 28 4 = 0x5 then List.replicate (w % 65536) 0 else []

end Sys2Proof.Machine
end

