-- ==== Sys2Proof/Machine/Step.lean ====
section
/-! DEFINITION. One step of the machine: a pending device latch, or one command of the block, or waiting. -/

namespace Sys2Proof.Machine

/-- One step. A command is taken from the port before it runs (R61). A block with nothing to do waits in the state it
is in (R220, R213; log 11). -/
def step (s : State) : Host.Outcome State Fault Refusal :=
  match fetch s with
  | .frame i => exec i s
  | .unspecified => .next s.latchUnspecified
  | .noDevice => .next s.endLatch
  | .quiescent => .fault .quiescent
  | .waiting => .next s
  | .illegal w rest => State.raise (.illegalCommand w) { s with port := rest }
  | .command i rest => exec i { s with port := rest }

/-- `s` with the instruction of the table word `w` placed where the next step takes it: a frame in device 0's shift
register with its latch pending, a command on the command port (log 8). -/
def State.withFetchWord (s : State) (nbits w : Nat) : State :=
  if nbits ≤ 16 then s.placeFrame (BitVec.ofNat 16 w) else s.placeCommand (tableBytes w)

end Sys2Proof.Machine
end

