-- ==== Sys2Proof/Safety.lean ====
section
/-! DEFINITION. What counts as a good state and what a command may change: the terms in which claims are stated. -/

namespace Sys2Proof.Machine

/-! ### States in which commands run -/

/-- No fault is recorded and a BEGIN has completed: every command runs its own rule (R109). -/
abbrev State.Ready (s : State) : Prop := s.fault = none ∧ s.init = true

/-- The next step takes a command from the port: no device latch is pending and no fault is recorded. -/
abbrev State.TakesCommand (s : State) : Prop := s.latchPending = false ∧ s.fault = none

/-! ### What changed -/

/-- `t` differs from `s` in the Display Buffer at most: no port, no wire event, no device. -/
def State.OnlyBuffer (s t : State) : Prop := t = { s with buf := t.buf }

/-- `t` differs from `s` in what the wires drive at most: TRACE, the ports DIN, CLK, CS, and the chain. -/
def State.OnlyWires (s t : State) : Prop :=
  t = { s with trace := t.trace, din := t.din, clk := t.clk, cs := t.cs, chain := t.chain }

/-- `t` differs from `s` in the device chain at most, and no latch is pending in `t`. -/
def State.OnlyChain (s t : State) : Prop := t = { s with chain := t.chain, latchPending := false }

/-- From `s` to `t` exactly these transactions went out, in this order, and the bus is idle after them (R102). -/
def State.Sends (s t : State) (txs : List (List Frame)) : Prop :=
  t.trace = s.trace ++ txs.flatMap transactionEvents ∧ t.cs = true ∧ (0 < t.count → t.clk = false)

/-- From `s` to `t` each of the first `n` devices of the chain became `f p` of what it was, `p` its position, and
every other device is as it was. -/
def State.EachDevice (s t : State) (n : Nat) (f : Nat → Device → Device) : Prop :=
  ∀ p, t.chain[p]? = s.chain[p]?.map fun d => if p < n then f p d else d

/-- From `s` to `t` the device about to latch became `f` of what it was, and every other device is as it was. -/
def State.OneDevice (s t : State) (f : Device → Device) : Prop :=
  ∀ p, t.chain[p]? = s.chain[p]?.map fun d => if p = s.latchPos then f d else d

/-- Two outcomes of one command that agree on everything of the block: they may differ in the device chain only. -/
def SameBlock : Result → Result → Prop
  | .next t, .next t' => t' = { t with chain := t'.chain, draws := t'.draws }
  | .fault r, .fault r' => r = r'
  | .refused r, .refused r' => r = r'
  | _, _ => False

/-- How many transactions a command that completes sends (R231); a frame kind is no command and sends none. -/
def transactionsOf : Instr → Nat
  | .begin _ => 6
  | .busBroadcast _ _ | .busTargeted _ _ _ => 1
  | .refresh | .clearDisplay => 8
  | .renderDigit _ _ | .renderLetter _ _ | .renderText _ | .clearDevice _ | .setColon _ _ | .setDecimal _ _
  | .setDegree _ _ | .clearAllIndicators => 0
  | .noop _ | .digit0 _ | .digit1 _ | .digit2 _ | .digit3 _ | .digit4 _ | .digit5 _ | .digit6 _ | .digit7 _
  | .decodeMode _ | .intensity _ | .scanLimit _ | .shutdown _ | .displayTest _ => 0

/-- The buffer commands: the eight that write the Display Buffer and no wire (41_buffer_glyph.md). -/
def bufferCommand : Instr → Bool
  | .renderDigit _ _ | .renderLetter _ _ | .renderText _ | .clearDevice _ | .setColon _ _ | .setDecimal _ _
  | .setDegree _ _ | .clearAllIndicators => true
  | .begin _ | .busBroadcast _ _ | .busTargeted _ _ _ | .refresh | .clearDisplay => false
  | .noop _ | .digit0 _ | .digit1 _ | .digit2 _ | .digit3 _ | .digit4 _ | .digit5 _ | .digit6 _ | .digit7 _
  | .decodeMode _ | .intensity _ | .scanLimit _ | .shutdown _ | .displayTest _ => false

/-! ### Invariants -/

/-- The Display Buffer is in canonical form. -/
def State.CanonicalBuffer (s : State) : Prop := s.buf.wf = true

/-- The ports are driven exactly since a BEGIN; after one the count is legal (R21) and the bus is idle between
commands (R33). -/
def State.Controlled (s : State) : Prop :=
  s.driven = s.init ∧
    (s.init = true → 1 ≤ s.count ∧ s.count ≤ s.cfg.nmax ∧ s.cs = true ∧ s.clk = false)

/-- No cell outside the `NMAX` x 8 store is listed (R23, R50). -/
def State.BufferInside (s : State) : Prop := ∀ c ∈ s.buf, c.1 < 8 * s.cfg.nmax

/-- The layout of R24 in every addressable device: in rows 2 to 6 only glyph columns are lit, in row 7 only the two
indicator bits. -/
def State.RowLayout (s : State) : Prop :=
  s.init = true → ∀ d < s.count,
    (∀ r, 2 ≤ r → r ≤ 6 → s.cell d r &&& 0x83 = 0) ∧ s.cell d 7 &&& 0x7D = 0

/-- TRACE is a sequence of whole transactions whose frames never name address 0xD or 0xE (R66, R73, R85). -/
def State.WholeTransactions (s : State) : Prop :=
  ∃ txs : List (List Frame), s.trace = txs.flatMap transactionEvents ∧
    ∀ fs ∈ txs, ∀ f ∈ fs, f.addr ≠ 0xD ∧ f.addr ≠ 0xE

/-- The state lists every device position, and a pending latch is a device's (logs 6, 8). -/
def State.ChainListed (s : State) : Prop :=
  s.chain.length = maxDevices ∧ (s.latchPending = true → s.latchPos < maxDevices)

end Sys2Proof.Machine
end

