-- ==== Sys2Proof/Certificates/Slice0/Obligations.lean ====
section
/-! DEFINITION. The statements for the provers, each from a rule of spec/. -/

open Sys2Proof Sys2Proof.Machine

/-! ### The spec's tables, for the statements -/

/-- The thirteen `CMD32` rows of opcode_table.json, in its order: match and mask. -/
def Sys2Proof.commandRows : List (Word × Word) :=
  [ (0x00000000, 0xF00FFFFF), (0x10000000, 0xFFF0FF00), (0x20000000, 0xF000FF00), (0x30000000, 0xF00F0000)
  , (0x40000000, 0xF00FFF00), (0x50000000, 0xFFFF0000), (0x60000000, 0xF00FFFFF), (0x70000000, 0xF00FFFFE)
  , (0x80000000, 0xF00FFFFE), (0x90000000, 0xF00FFFFE), (0xA0000000, 0xFFFFFFFF), (0xB0000000, 0xFFFFFFFF)
  , (0xC0000000, 0xFFFFFFFF) ]

/-- The fourteen `FRAME16` rows of opcode_table.json, in its order: match and mask. -/
def Sys2Proof.frameRows : List (FrameWord × FrameWord) :=
  [ (0x0000, 0xFF00), (0x0100, 0xFF00), (0x0200, 0xFF00), (0x0300, 0xFF00), (0x0400, 0xFF00), (0x0500, 0xFF00)
  , (0x0600, 0xFF00), (0x0700, 0xFF00), (0x0800, 0xFF00), (0x0900, 0xFF00), (0x0A00, 0xFF00), (0x0B00, 0xFF00)
  , (0x0C00, 0xFF00), (0x0F00, 0xFF00) ]

/-- The row of opcode_table.json that stands for the instruction, by number: commands 0 to 12, frame kinds 13 to 26. -/
def Sys2Proof.tableRow : Instr → Nat
  | .begin _ => 0
  | .busBroadcast _ _ => 1
  | .busTargeted _ _ _ => 2
  | .renderDigit _ _ => 3
  | .renderLetter _ _ => 4
  | .renderText _ => 5
  | .clearDevice _ => 6
  | .setColon _ _ => 7
  | .setDecimal _ _ => 8
  | .setDegree _ _ => 9
  | .clearAllIndicators => 10
  | .refresh => 11
  | .clearDisplay => 12
  | .noop _ => 13
  | .digit0 _ => 14
  | .digit1 _ => 15
  | .digit2 _ => 16
  | .digit3 _ => 17
  | .digit4 _ => 18
  | .digit5 _ => 19
  | .digit6 _ => 20
  | .digit7 _ => 21
  | .decodeMode _ => 22
  | .intensity _ => 23
  | .scanLimit _ => 24
  | .shutdown _ => 25
  | .displayTest _ => 26

/-- A bus command (`op` 1 or 2) that names register 0xD or 0xE (R83). -/
def Sys2Proof.NamesReservedRegister (w : Word) : Prop :=
  (w.extractLsb' 28 4 = 0x1 ∨ w.extractLsb' 28 4 = 0x2) ∧ (w.extractLsb' 16 4 = 0xD ∨ w.extractLsb' 16 4 = 0xE)

/-- A word no rule R81-R83 makes illegal: it matches a row of the table, and is no bus command naming a reserved
register. -/
def Sys2Proof.LegalWord (w : Word) : Prop :=
  (∃ row ∈ commandRows, w &&& row.2 = row.1) ∧ ¬ NamesReservedRegister w

/-- How many payload bytes R80 reads after the word: `arg` if `op` is 0x5, whatever else the word holds. -/
def Sys2Proof.bytesAfterWord (w : Word) : Nat :=
  if w.extractLsb' 28 4 = 0x5 then (w.extractLsb' 0 16).toNat else 0

/-- What a device becomes when it latches `data` for the specified address `addr`: R175 for 0x1 to 0x8, R176 to R180
for the five configuration registers, and R174, no register changed, for 0x0. (0xD and 0xE are R181's, and no
statement applies this to them.) -/
def Sys2Proof.latchRule (addr : Addr) (data : Byte) (d : Device) : Device :=
  if 1 ≤ addr.toNat ∧ addr.toNat ≤ 8 then
    { d with digits := Vector.ofFn fun k : Fin 8 => if k.val + 1 = addr.toNat then data else d.digits[k] }
  else if addr = 0x9 then { d with decode := data }
  else if addr = 0xA then { d with intensity := BitVec.ofNat 4 data.toNat }
  else if addr = 0xB then { d with scanLimit := BitVec.ofNat 3 data.toNat }
  else if addr = 0xC then { d with shutdown := BitVec.ofBool (data.getLsbD 0) }
  else if addr = 0xF then { d with test := BitVec.ofBool (data.getLsbD 0) }
  else d

/-- Rows 0 and 1 of device `dev` hold what was written last (R132): `i`'s rows if `i` runs after SET_DEGREE on, and the
degree pattern if SET_DEGREE on runs after `i`. -/
def Sys2Proof.LastWrittenShows (s : State) (dev : Byte) (i : Instr) (row : Nat → Byte) : Prop :=
  (∃ t u, exec (.setDegree dev true) s = .next t ∧ exec i t = .next u ∧
    u.cell dev.toNat 0 = row 0 ∧ u.cell dev.toNat 1 = row 1) ∧
  (∃ t u, exec i s = .next t ∧ exec (.setDegree dev true) t = .next u ∧
    u.cell dev.toNat 0 = s.cfg.degRow0 ∧ u.cell dev.toNat 1 = s.cfg.degRow1)

/-- Row `r` of what RENDER_TEXT puts on a device for a character (R125, R126), by the character's number. -/
def Sys2Proof.textRow (cfg : Config) (r : Nat) : Option Byte → Byte
  | none => 0x00
  | some ch =>
    if r = 7 then 0x00
    else if h : 0x30 ≤ ch.toNat ∧ ch.toNat ≤ 0x39 then glyphRow (cfg.fontDigit[ch.toNat - 0x30]'(by omega)) r
    else if h : 0x41 ≤ ch.toNat ∧ ch.toNat ≤ 0x5A then glyphRow (cfg.fontLetter[ch.toNat - 0x41]'(by omega)) r
    else if h : 0x61 ≤ ch.toNat ∧ ch.toNat ≤ 0x7A then glyphRow (cfg.fontLetter[ch.toNat - 0x61]'(by omega)) r
    else 0x00

/-! ### Reset, waiting and the step -/

/-- The power-on values R34 and R220 give. That the block then waits, its port empty, is the model's reading (log 11)
of R220 "the block waits for its first command". -/
def Obligations.PowerOnValues : Prop :=
  State.reset.init = false ∧ State.reset.fault = none ∧ State.reset.trace = [] ∧ State.reset.driven = false ∧
    step State.reset = .next State.reset

/-- A step runs the decoded command, taken from the port (R109, R61). -/
def Obligations.StepRunsDecodedCommand : Prop :=
  ∀ (s : State) (i : Instr) (rest : List Byte), s.TakesCommand → decode s.port = .ok (i, rest) →
    step s = exec i { s with port := rest }

/-- A device about to latch decodes its own shift register, bits 15:12 ignored, and the step runs that frame (R173).
That a latch can be a step of its own is the model's choice (log 8). -/
def Obligations.StepRunsLatchedFrame : Prop :=
  ∀ (s : State) (i : Instr) (f : Frame) (nibble : BitVec 4) (d : Device), s.latchPending = true →
    s.chain[s.latchPos]? = some d → d.sr = (nibble ++ f.addr) ++ f.data → frameFields i = some f →
    step s = exec i s

/-- Latching address 0xD or 0xE may leave that device in any state, and touches nothing else (R181; log 9). The free
value is whatever it is. -/
def Obligations.UnspecifiedLatchTouchesOneDevice : Prop :=
  ∀ (s : State) (d : Device), s.latchPending = true → s.chain[s.latchPos]? = some d →
    (frameAddr d.sr = 0xD ∨ frameAddr d.sr = 0xE) →
    ∃ t, step s = .next t ∧ t = { s with chain := t.chain, latchPending := false, draws := t.draws } ∧
      ∃ d', s.OneDevice t fun _ => d'

/-- A port without a whole command: the block waits (R80; log 11), also where the word at hand is illegal but has
payload bytes outstanding (log 12). -/
def Obligations.IncompleteCommandWaits : Prop :=
  ∀ s : State, s.TakesCommand →
    (s.port.length < 4 ∨ ∃ (dev : Byte) (reg : Addr) (len : BitVec 16) (text : List Byte),
      text.length < len.toNat ∧ s.port = wordBytes ((0x5#4 ++ dev) ++ (reg ++ len)) ++ text) →
    step s = .next s

/-- R81, R82, R83: a word is illegal exactly where the table and the reserved registers say so; an illegal command,
once the payload R80 reads is on the port, raises IllegalCommand with its word recorded and changes nothing else (that
its bytes leave the port is the model's, log 12), and a legal one never does. -/
def Obligations.IllegalWordsRaise : Prop :=
  (∀ (s : State) (w : Word) (text rest : List Byte), s.TakesCommand → text.length = bytesAfterWord w →
    s.port = wordBytes w ++ text ++ rest → ¬ LegalWord w →
    step s = .next { s with fault := some (.illegalCommand w), port := rest }) ∧
  (∀ (s t : State) (w w' : Word) (rest : List Byte), s.TakesCommand → s.port = wordBytes w ++ rest → LegalWord w →
    step s = .next t → t.fault ≠ some (.illegalCommand w'))

/-! ### Encoding -/

/-- Decoding an encoded well-formed instruction gives it back, every operand at every value (byte order: log 1). -/
def Obligations.DecodeEncodeAgree : Prop :=
  ∀ i : Instr, i.wf = true →
    (frameFields i = none → ∀ rest, decode (encode i ++ rest) = .ok (i, rest)) ∧
    (∀ f, frameFields i = some f → decodeFrame f.word = .ok i ∧ encode i = [0#4 ++ f.addr, f.data])

/-- Each accepted bit pattern has one meaning: it is the encoding of what it decodes to, which is well formed. -/
def Obligations.AcceptedBitsReencode : Prop :=
  (∀ (bs rest : List Byte) (i : Instr), decode bs = .ok (i, rest) →
    i.wf = true ∧ frameFields i = none ∧ bs = encode i ++ rest) ∧
  (∀ (w : FrameWord) (i : Instr), decodeFrame w = .ok i → ∃ f, frameFields i = some f ∧ w = f.word)

/-- The decoders read the opcode table: the word decoder accepts a word as the constructor of row `k` exactly where the
word matches row `k` and names no reserved register (R77, R83), the frame decoder a frame as the constructor of row
`13 + k` exactly where the frame matches it (R84, R85); and no word or frame matches two rows. -/
def Obligations.DecodersReadTheOpcodeTable : Prop :=
  (∀ (w : Word) (text : List Byte) (k : Nat),
    (∃ i, decodeWord w text = .ok i ∧ tableRow i = k) ↔
      (∃ row, commandRows[k]? = some row ∧ w &&& row.2 = row.1) ∧ ¬ NamesReservedRegister w) ∧
  (∀ (f : FrameWord) (k : Nat),
    (∃ i, decodeFrame f = .ok i ∧ tableRow i = 13 + k) ↔ ∃ row, frameRows[k]? = some row ∧ f &&& row.2 = row.1) ∧
  commandRows.Pairwise (fun a b => ∀ w : Word, ¬ (w &&& a.2 = a.1 ∧ w &&& b.2 = b.1)) ∧
  frameRows.Pairwise (fun a b => ∀ w : FrameWord, ¬ (w &&& a.2 = a.1 ∧ w &&& b.2 = b.1))

/-- Words written out in 95_test_vectors.md decode to the commands they stand for. -/
def Obligations.WrittenOutWordsDecode : Prop :=
  decode [0x10, 0x0C, 0x00, 0x01] = .ok (.busBroadcast 0xC 0x01, []) ∧
  decode [0x20, 0x11, 0x00, 0x81] = .ok (.busTargeted 1 0x1 0x81, []) ∧
  decode [0x30, 0x00, 0xFF, 0xFF] = .ok (.renderDigit 0 (-1), []) ∧
  decode [0x40, 0x10, 0x00, 0x61] = .ok (.renderLetter 1 0x61, []) ∧
  decode [0x50, 0x00, 0x00, 0x03, 0x41, 0x31, 0x20] = .ok (.renderText [0x41, 0x31, 0x20], []) ∧
  decode [0x70, 0x50, 0x00, 0x01] = .ok (.setColon 5 true, []) ∧
  decode [0x00, 0x10, 0x00, 0x00] = .ok (.begin 1, []) ∧
  decodeFrame 0x0882 = .ok (.digit7 0x82)

/-! ### The prologue and the faults -/

/-- While INIT is 0 every legal command but BEGIN raises NotInitialized with its `op` (R22, R109, R202). -/
def Obligations.UninitialisedCommandsRaise : Prop :=
  ∀ (i : Instr) (f : CmdFields) (s : State), i.wf = true → commandFields i = some f → f.op ≠ 0x0 →
    s.fault = none → s.init = false → exec i s = .next { s with fault := some (.notInitialized f.op) }

/-- R203: a command that raises changes nothing but FAULT; a faulted block takes no further step, whatever the command;
and no step clears or replaces FAULT. That "no step" is the outcome `quiescent` is the model's reading (log 7). -/
def Obligations.FaultsArePreciseFinalAndSticky : Prop :=
  (∀ (i : Instr) (s t : State), s.fault = none → exec i s = .next t → t.fault ≠ none → t = { s with fault := t.fault }) ∧
  (∀ s : State, s.latchPending = false → s.fault ≠ none → step s = .fault .quiescent) ∧
  (∀ (i : Instr) (s : State), (commandFields i).isSome = true → s.fault ≠ none → exec i s = .fault .quiescent) ∧
  (∀ s t : State, s.fault ≠ none → step s = .next t → t.fault = s.fault)

/-- The machine stops only where a fault is recorded, and it refuses nothing (R200, R203, R206; log 7). -/
def Obligations.StepStopsOnlyWhenFaulted : Prop :=
  ∀ s : State, (∀ r, step s ≠ .refused r) ∧
    (∀ r, step s = .fault r ↔ r = .quiescent ∧ s.latchPending = false ∧ s.fault ≠ none)

/-- R204: illegal before uninitialised before the command's own fault before silent rejection. The first clause is of
the step, with the word of a BUS_TARGETED to 0xD or 0xE (R83) on the port: whatever INIT holds and whether or not the
target is a device, IllegalCommand is raised. -/
def Obligations.FaultPriority : Prop :=
  (∀ (s : State) (reg : Addr) (dev data : Byte) (rest : List Byte), s.TakesCommand → (reg = 0xD ∨ reg = 0xE) →
    s.port = wordBytes ((0x2#4 ++ dev) ++ (reg ++ (0#8 ++ data))) ++ rest →
    step s = .next
      { s with fault := some (.illegalCommand ((0x2#4 ++ dev) ++ (reg ++ (0#8 ++ data)))), port := rest }) ∧
  (∀ (s : State) (reg : Addr) (dev data : Byte), s.fault = none → reg ≠ 0xD → reg ≠ 0xE → s.init = false →
    exec (.busTargeted dev reg data) s = .next { s with fault := some (.notInitialized 0x2) }) ∧
  (∀ (s : State) (reg : Addr) (dev data : Byte), s.Ready → reg ≠ 0xD → reg ≠ 0xE → s.count ≤ dev.toNat →
    exec (.busTargeted dev reg data) s = .next { s with fault := some (.badTarget dev) }) ∧
  (∀ (s : State) (n : Byte), s.fault = none → n = 0 ∨ s.cfg.nmax < n.toNat →
    exec (.begin n) s = .next { s with fault := some (.badDeviceCount n) }) ∧
  (∀ (s : State) (dev : Byte) (arg : BitVec 16), s.fault = none → s.init = false → s.count ≤ dev.toNat →
    exec (.renderDigit dev arg) s = .next { s with fault := some (.notInitialized 0x3) })

/-! ### The buffer commands -/

/-- R121: rendering a glyph replaces rows 0-6 by rows whose bit `c + 2` is font column `c` and whose bits 0, 1 and 7
are 0, and clears row 7; no other cell changes. -/
def Obligations.RenderGlyphRows : Prop :=
  ∀ (s : State) (d : Nat) (p : Glyph), s.OnlyBuffer (s.renderGlyph d p) ∧
    (∀ d' r, r < 8 → d' ≠ d → (s.renderGlyph d p).cell d' r = s.cell d' r) ∧
    (s.renderGlyph d p).cell d 7 = 0x00 ∧
    ∀ (r k : Nat) (hr : r < 7), k < 8 →
      ((s.renderGlyph d p).cell d r).getLsbD k = (decide (2 ≤ k) && p[r].getLsbD (k - 2))

/-- RENDER_DIGIT (R123): for a number 0 to 9 on a device of the chain rows 0-6 are the digit's glyph and row 7 is 0;
any other number, or a device index that is not below `N`, changes nothing. -/
def Obligations.RenderDigitWritesGlyph : Prop :=
  ∀ (s : State) (dev : Byte) (arg : BitVec 16), s.Ready →
    (∀ (number : Nat) (h : number < 10), arg = BitVec.ofNat 16 number → dev.toNat < s.count →
      ∃ t, exec (.renderDigit dev arg) s = .next t ∧ s.OnlyBuffer t ∧
        ∀ d r, r < 8 → t.cell d r =
          if d = dev.toNat then (if r = 7 then 0x00 else glyphRow (s.cfg.fontDigit[number]) r) else s.cell d r) ∧
    (arg.toInt < 0 ∨ 9 < arg.toInt ∨ s.count ≤ dev.toNat → exec (.renderDigit dev arg) s = .next s)

/-- RENDER_LETTER (R124): letter number `l`, upper or lower case, on a device of the chain gives that letter's glyph
and row 7 zero; any other byte, or a device index that is not below `N`, changes nothing. -/
def Obligations.RenderLetterWritesGlyph : Prop :=
  ∀ (s : State) (dev letter : Byte), s.Ready →
    (∀ (l : Nat) (h : l < 26), letter.toNat = 0x41 + l ∨ letter.toNat = 0x61 + l → dev.toNat < s.count →
      ∃ t, exec (.renderLetter dev letter) s = .next t ∧ s.OnlyBuffer t ∧
        ∀ d r, r < 8 → t.cell d r =
          if d = dev.toNat then (if r = 7 then 0x00 else glyphRow (s.cfg.fontLetter[l]) r) else s.cell d r) ∧
    ((letter.toNat < 0x41 ∨ (0x5A < letter.toNat ∧ letter.toNat < 0x61) ∨ 0x7A < letter.toNat ∨ s.count ≤ dev.toNat) →
      exec (.renderLetter dev letter) s = .next s)

/-- Case-fold equivalence (R124): a lower-case letter does what its upper case does. -/
def Obligations.CaseFoldEquivalence : Prop :=
  ∀ (s : State) (dev letter : Byte), s.Ready → 0x61 ≤ letter.toNat → letter.toNat ≤ 0x7A →
    exec (.renderLetter dev letter) s = exec (.renderLetter dev (letter - 0x20)) s

/-- RENDER_TEXT (R125, R126): every device below `N` gets its own character of the text up to its first 0x00 byte, or
is cleared; no other cell changes. -/
def Obligations.RenderTextOneCharPerDevice : Prop :=
  ∀ (s : State) (text : List Byte), s.Ready → text.length < 65536 →
    ∃ t, exec (.renderText text) s = .next t ∧ s.OnlyBuffer t ∧
      ∀ d r, r < 8 → t.cell d r =
        if d < s.count then textRow s.cfg r (text.takeWhile (· != 0x00))[d]? else s.cell d r

/-- CLEAR_DEVICE (R127). -/
def Obligations.ClearDeviceZeroes : Prop :=
  ∀ (s : State) (dev : Byte), s.Ready → dev.toNat < s.count →
    ∃ t, exec (.clearDevice dev) s = .next t ∧ s.OnlyBuffer t ∧
      ∀ d r, r < 8 → t.cell d r = if d = dev.toNat then 0x00 else s.cell d r

/-- SET_COLON and SET_DECIMAL (R128, R129): bit 1, bit 7 of row 7 becomes `on`; every other bit of that cell and every
other cell is as before. -/
def Obligations.IndicatorsChangeOneBit : Prop :=
  ∀ (s : State) (dev : Byte) (on : Bool), s.Ready → dev.toNat < s.count →
    (∃ t, exec (.setColon dev on) s = .next t ∧ s.OnlyBuffer t ∧
      ∀ d r k, r < 8 → k < 8 → (t.cell d r).getLsbD k =
        if d = dev.toNat ∧ r = 7 ∧ k = 1 then on else (s.cell d r).getLsbD k) ∧
    (∃ t, exec (.setDecimal dev on) s = .next t ∧ s.OnlyBuffer t ∧
      ∀ d r k, r < 8 → k < 8 → (t.cell d r).getLsbD k =
        if d = dev.toNat ∧ r = 7 ∧ k = 7 then on else (s.cell d r).getLsbD k)

/-- S5: colon on, then decimal on, gives the old row 7 with bits 1 and 7 set; the two orders give the same state. -/
def Obligations.ColonThenDecimalCombine : Prop :=
  ∀ (s : State) (dev : Byte), s.Ready → s.CanonicalBuffer → dev.toNat < s.count →
    ∃ t u, exec (.setColon dev true) s = .next t ∧ exec (.setDecimal dev true) t = .next u ∧
      u.cell dev.toNat 7 = s.cell dev.toNat 7 ||| 0x82 ∧
      ∃ v, exec (.setDecimal dev true) s = .next v ∧ exec (.setColon dev true) v = .next u

/-- SET_DEGREE (R130): rows 0 and 1 become the degree pattern, or zero; rows 2-7 and every other device are as
before. -/
def Obligations.SetDegreeOverlaysTwoRows : Prop :=
  ∀ (s : State) (dev : Byte) (on : Bool), s.Ready → dev.toNat < s.count →
    ∃ t, exec (.setDegree dev on) s = .next t ∧ s.OnlyBuffer t ∧
      ∀ d r, r < 8 → t.cell d r =
        if d = dev.toNat ∧ r = 0 then (if on then s.cfg.degRow0 else 0x00)
        else if d = dev.toNat ∧ r = 1 then (if on then s.cfg.degRow1 else 0x00)
        else s.cell d r

/-- R132: rows 0-1 hold the glyph's rows or the degree pattern, whichever was written last: for every digit, every
letter in either case, and every text, whose character for the device may also be none or have no glyph (R125). -/
def Obligations.DegreeAndGlyphExclude : Prop :=
  ∀ (s : State) (dev : Byte), s.Ready → dev.toNat < s.count →
    (∀ (number : Nat) (h : number < 10),
      LastWrittenShows s dev (.renderDigit dev (BitVec.ofNat 16 number)) (glyphRow (s.cfg.fontDigit[number]))) ∧
    (∀ (letter : Byte) (l : Nat) (h : l < 26), letter.toNat = 0x41 + l ∨ letter.toNat = 0x61 + l →
      LastWrittenShows s dev (.renderLetter dev letter) (glyphRow (s.cfg.fontLetter[l]))) ∧
    (∀ text : List Byte, text.length < 65536 →
      LastWrittenShows s dev (.renderText text)
        fun r => textRow s.cfg r (text.takeWhile (· != 0x00))[dev.toNat]?)

/-- CLEAR_ALL_INDICATORS (R131): row 7 of every device below `N` becomes 0; every other cell is as before. -/
def Obligations.ClearAllIndicatorsClearsRow7 : Prop :=
  ∀ s : State, s.Ready →
    ∃ t, exec .clearAllIndicators s = .next t ∧ s.OnlyBuffer t ∧
      ∀ d r, r < 8 → t.cell d r = if d < s.count ∧ r = 7 then 0x00 else s.cell d r

/-- R135 and R122: with a device index that is not below `N`, each of the six commands changes nothing at all. -/
def Obligations.InvalidIndexIsIgnored : Prop :=
  ∀ (s : State) (dev : Byte) (arg : BitVec 16) (letter : Byte) (on : Bool), s.Ready → s.count ≤ dev.toNat →
    exec (.renderDigit dev arg) s = .next s ∧ exec (.renderLetter dev letter) s = .next s ∧
    exec (.setColon dev on) s = .next s ∧ exec (.setDecimal dev on) s = .next s ∧
    exec (.setDegree dev on) s = .next s ∧ exec (.clearDevice dev) s = .next s

/-- R133: no buffer command emits a wire event or changes a port, whatever it does; no device changes. -/
def Obligations.BufferCommandsStayOffTheWire : Prop :=
  ∀ (i : Instr) (s t : State), bufferCommand i = true → exec i s = .next t →
    t.trace = s.trace ∧ t.din = s.din ∧ t.clk = s.clk ∧ t.cs = s.cs ∧ t.driven = s.driven ∧ t.chain = s.chain

/-! ### The wires -/

/-- R72 and R101: a frame is sixteen BIT events, those of `0000`, `addr`, `data` from bit 15 down. R100: a BIT event is
recorded and leaves CLK at 0; that it leaves its level on DIN is how the model keeps that port (log 10). -/
def Obligations.FramesGoOutMsbFirst : Prop :=
  (∀ f : Frame, (Frame.events f).length = 16 ∧ ∀ k, k < 16 →
    (Frame.events f)[k]? = some (WireEvent.bit (((0#4 ++ f.addr) ++ f.data : FrameWord).getLsbD (15 - k)))) ∧
  (∀ (s : State) (b : Bool), (s.emit (.bit b)).trace = s.trace ++ [.bit b] ∧ (s.emit (.bit b)).din = b ∧
    (s.emit (.bit b)).clk = false ∧ (s.emit (.bit b)).cs = s.cs)

/-- Position mapping (R182, R173, R106): a transaction of `N` frames to specified addresses leaves each device `p`
below `N` holding the frame of slot `N-1-p`, whose rule (R174-R180) it has applied; the rest of the chain and the free values are
untouched. The chain of 255 positions is the model's (log 6). -/
def Obligations.TransactionDeliversEachSlot : Prop :=
  ∀ (s : State) (fs : List Frame), fs.length = s.count → (∀ f ∈ fs, f.addr ≠ 0xD ∧ f.addr ≠ 0xE) →
    s.Sends (s.transaction fs) [fs] ∧ s.OnlyWires (s.transaction fs) ∧
    s.EachDevice (s.transaction fs) s.count fun p d =>
      let f := fs.getD (s.count - 1 - p) Frame.noop
      latchRule f.addr f.data { d with sr := f.word }

/-- BUS_BROADCAST (R103): one transaction of `N` equal frames; every device applies the rule of the register (R174-R180);
the buffer is unchanged. -/
def Obligations.BroadcastReachesEveryDevice : Prop :=
  ∀ (s : State) (reg : Addr) (data : Byte), s.Ready → reg ≠ 0xD → reg ≠ 0xE →
    ∃ t, exec (.busBroadcast reg data) s = .next t ∧ s.OnlyWires t ∧
      s.Sends t [List.replicate s.count { addr := reg, data := data }] ∧
      s.EachDevice t s.count fun _ d =>
        latchRule reg data { d with sr := (0#4 ++ reg) ++ data }

/-- BUS_TARGETED (R104): one transaction, the frame in slot `N-1-dev` and the no-op frame in every other; the target
applies the rule of the register (R174-R180), and no other device's registers change; the buffer is unchanged. -/
def Obligations.TargetedReachesOneDevice : Prop :=
  ∀ (s : State) (dev : Byte) (reg : Addr) (data : Byte), s.Ready → reg ≠ 0xD → reg ≠ 0xE → dev.toNat < s.count →
    ∃ t, exec (.busTargeted dev reg data) s = .next t ∧ s.OnlyWires t ∧
      s.Sends t [(List.range s.count).map fun j =>
        if j = s.count - 1 - dev.toNat then { addr := reg, data := data } else { addr := 0x0, data := 0x00 }] ∧
      s.EachDevice t s.count fun p d =>
        if p = dev.toNat then latchRule reg data { d with sr := (0#4 ++ reg) ++ data } else { d with sr := 0 }

/-- REFRESH (R150, R105): eight transactions, row `r` to digit register `r + 1`, far end first; afterwards every
device's digit registers are its buffer rows; its other registers and the buffer are unchanged. -/
def Obligations.RefreshPushesTheBuffer : Prop :=
  ∀ s : State, s.Ready →
    ∃ t, exec .refresh s = .next t ∧ s.OnlyWires t ∧
      s.Sends t ((List.range 8).map fun r => (List.range s.count).map fun j =>
        { addr := BitVec.ofNat 4 (r + 1), data := s.cell (s.count - 1 - j) r }) ∧
      s.EachDevice t s.count fun p d =>
        { d with sr := (0x08 : Byte) ++ s.cell p 7, digits := Vector.ofFn fun k : Fin 8 => s.cell p k }

/-- R233: after the transactions of rows `0..k-1` of a refresh the chain shows those rows new and the rest old. -/
def Obligations.RefreshGoesRowByRow : Prop :=
  ∀ (s : State) (k : Nat), k ≤ 8 →
    s.EachDevice ((List.range k).foldl State.rowTransaction s) s.count fun p d =>
      { d with
        sr := if k = 0 then d.sr else (0#4 ++ BitVec.ofNat 4 k) ++ s.cell p (k - 1)
        digits := Vector.ofFn fun r : Fin 8 => if r.val < k then s.cell p r else d.digits[r] }

/-- R151: REFRESH does not change the buffer, NDEV, INIT or FAULT. -/
def Obligations.RefreshKeepsBlockState : Prop :=
  ∀ s t : State, s.Ready → exec .refresh s = .next t →
    t.buf = s.buf ∧ t.ndev = s.ndev ∧ t.init = s.init ∧ t.fault = s.fault

/-- R58: a second REFRESH with no buffer change between leaves every device as the first left it. -/
def Obligations.RefreshIsIdempotent : Prop :=
  ∀ s : State, s.Ready →
    ∃ t u, exec .refresh s = .next t ∧ exec .refresh t = .next u ∧ u.chain = t.chain ∧
      ∃ es, t.trace = s.trace ++ es ∧ u.trace = t.trace ++ es

/-- CLEAR_DISPLAY (R152): every cell of the devices below `N` becomes 0, and eight transactions of zero rows go out;
afterwards every device's digit registers are 0. -/
def Obligations.ClearDisplayClearsAndFlushes : Prop :=
  ∀ s : State, s.Ready →
    ∃ t, exec .clearDisplay s = .next t ∧
      t = { s with buf := t.buf, trace := t.trace, din := t.din, clk := t.clk, cs := t.cs, chain := t.chain } ∧
      (∀ d r, r < 8 → t.cell d r = if d < s.count then 0x00 else s.cell d r) ∧
      s.Sends t ((List.range 8).map fun r => List.replicate s.count { addr := BitVec.ofNat 4 (r + 1), data := 0x00 }) ∧
      s.EachDevice t s.count fun _ d => { d with sr := 0x0800, digits := Vector.replicate 8 0x00 }

/-- BEGIN (R153, R154, R155, R156): from any state without a fault, with `1 <= n <= NMAX`: INIT, NDEV, DRIVEN and the
idle levels are set, every cell of the devices below `n` becomes 0, the six configuration writes go out in order, each
device has applied them, its digit registers are as they were, and nothing else changes. -/
def Obligations.BeginConfiguresTheChain : Prop :=
  ∀ (s : State) (n : Byte), s.fault = none → 1 ≤ n.toNat → n.toNat ≤ s.cfg.nmax →
    ∃ t, exec (.begin n) s = .next t ∧
      t.init = true ∧ t.ndev = n ∧ t.driven = true ∧ t.cs = true ∧ t.clk = false ∧
      t = { s with
        init := true, ndev := n, driven := true, buf := t.buf, trace := t.trace, din := t.din, clk := t.clk,
        cs := t.cs, chain := t.chain } ∧
      (∀ d r, r < 8 → t.cell d r = if d < n.toNat then 0x00 else s.cell d r) ∧
      s.Sends t
        [ List.replicate n.toNat { addr := 0xC, data := s.cfg.initShutdownFirst.setWidth 8 }
        , List.replicate n.toNat { addr := 0xF, data := 0x00 }
        , List.replicate n.toNat { addr := 0x9, data := 0x00 }
        , List.replicate n.toNat { addr := 0xB, data := 0x07 }
        , List.replicate n.toNat { addr := 0xA, data := s.cfg.initIntensity.setWidth 8 }
        , List.replicate n.toNat { addr := 0xC, data := 0x01 } ] ∧
      s.EachDevice t n.toNat fun _ d =>
        { d with
          sr := 0x0C01, shutdown := 1, test := 0, decode := 0x00, scanLimit := 7, intensity := s.cfg.initIntensity }

/-- R186: after BEGIN then REFRESH every device of the chain holds its buffer rows and the configuration, and so shows
the buffer. That all positions are listed is the model's invariant (log 6). -/
def Obligations.BeginThenRefreshShowsTheBuffer : Prop :=
  ∀ (s : State) (n : Byte), s.fault = none → s.ChainListed → 1 ≤ n.toNat → n.toNat ≤ s.cfg.nmax →
    ∃ t u, exec (.begin n) s = .next t ∧ exec .refresh t = .next u ∧
      ∀ p, p < n.toNat → ∃ d, u.chain[p]? = some d ∧
        d.shutdown = 1 ∧ d.test = 0 ∧ d.decode = 0 ∧ d.scanLimit = 7 ∧ d.intensity = s.cfg.initIntensity ∧
        ∀ k : Fin 8, d.digits[k] = u.cell p k ∧ Device.shown d k = .pattern (u.cell p k)

/-- R231: how many transactions, BIT events and CS events each command sends; a faulted command sends none. -/
def Obligations.EventCountsPerCommand : Prop :=
  ∀ (i : Instr) (s t : State), (commandFields i).isSome = true → s.fault = none → exec i s = .next t →
    ∃ es, t.trace = s.trace ++ es ∧
      (t.fault ≠ none → es = []) ∧
      (t.fault = none →
        es.count .csLow = transactionsOf i ∧ es.count .csHigh = transactionsOf i ∧
        es.count (.bit true) + es.count (.bit false) = 16 * t.count * transactionsOf i)

/-! ### The frame kinds -/

/-- R173 to R180, for every frame kind and every data byte: a device whose shift register holds the frame, under any
high nibble, latches it by the rule of its address; and that rule is what the frame kind's own meaning does to the
latching device (log 8). -/
def Obligations.DevicesApplyTheFrameRules : Prop :=
  ∀ (i : Instr) (f : Frame), frameFields i = some f →
    (∀ (nibble : BitVec 4) (free d : Device), d.sr = (nibble ++ f.addr) ++ f.data →
      Device.latch free d = latchRule f.addr f.data d) ∧
    (∀ s : State, ∃ t, exec i s = .next t ∧ s.OnlyChain t ∧ s.OneDevice t (latchRule f.addr f.data))

/-- NOOP (R174): no device register changes. The latch as a step of its own is the model's choice (log 8). -/
def Obligations.NoopChangesNoDevice : Prop :=
  ∀ (s : State) (data : Byte), ∃ t, exec (.noop data) s = .next t ∧ s.OnlyChain t ∧ t.chain = s.chain

/-- DIGIT0 to DIGIT7 (R175): the latching device's digit register of that row becomes the data byte; its other
registers, every other device and the block are unchanged (log 8). -/
def Obligations.DigitFramesWriteOneRow : Prop :=
  ∀ (s : State) (data : Byte) (i : Instr) (k : Fin 8),
    (i, k) ∈ [(Instr.digit0 data, 0), (.digit1 data, 1), (.digit2 data, 2), (.digit3 data, 3), (.digit4 data, 4),
      (.digit5 data, 5), (.digit6 data, 6), (.digit7 data, 7)] →
    ∃ t, exec i s = .next t ∧ s.OnlyChain t ∧
      s.OneDevice t fun d => { d with digits := Vector.ofFn fun j => if j = k then data else d.digits[j] }

/-- DECODE_MODE, INTENSITY, SCAN_LIMIT, SHUTDOWN, DISPLAY_TEST (R176-R180): the latching device's register takes its
bits of the data; its other registers, every other device and the block are unchanged (log 8). -/
def Obligations.ConfigurationFramesWriteOneRegister : Prop :=
  ∀ (s : State) (data : Byte),
    (∃ t, exec (.decodeMode data) s = .next t ∧ s.OnlyChain t ∧ s.OneDevice t fun d => { d with decode := data }) ∧
    (∃ t, exec (.intensity data) s = .next t ∧ s.OnlyChain t ∧
      s.OneDevice t fun d => { d with intensity := BitVec.ofNat 4 data.toNat }) ∧
    (∃ t, exec (.scanLimit data) s = .next t ∧ s.OnlyChain t ∧
      s.OneDevice t fun d => { d with scanLimit := BitVec.ofNat 3 data.toNat }) ∧
    (∃ t, exec (.shutdown data) s = .next t ∧ s.OnlyChain t ∧
      s.OneDevice t fun d => { d with shutdown := BitVec.ofBool (data.getLsbD 0) }) ∧
    (∃ t, exec (.displayTest data) s = .next t ∧ s.OnlyChain t ∧
      s.OneDevice t fun d => { d with test := BitVec.ofBool (data.getLsbD 0) })

/-- R184: what a device shows (log 17 for the combinations it leaves open). -/
def Obligations.DisplayedImageFollowsRegisters : Prop :=
  ∀ (d : Device) (k : Fin 8),
    (d.test = 1 → Device.shown d k = .allLit) ∧
    (d.shutdown = 0 → d.test = 0 → Device.shown d k = .dark) ∧
    (∀ b, Device.shown d k = .pattern b ↔
      d.shutdown = 1 ∧ d.test = 0 ∧ d.decode = 0x00 ∧ k.val ≤ d.scanLimit.toNat ∧ b = d.digits[k])

/-! ### The whole machine -/

/-- R107: the block reads nothing from the chain: with another chain a command does the same to everything else. -/
def Obligations.CommandsNeverReadTheChain : Prop :=
  ∀ (i : Instr) (s : State) (chain : List Device) (draws : Nat), (commandFields i).isSome = true →
    SameBlock (exec i s) (exec i { s with chain := chain, draws := draws })

/-- R8, R21, R22: only BEGIN writes NDEV or INIT, and nothing clears INIT. -/
def Obligations.OnlyBeginWritesCountAndInit : Prop :=
  (∀ (i : Instr) (s t : State), (∀ n, i ≠ .begin n) → exec i s = .next t → t.ndev = s.ndev ∧ t.init = s.init) ∧
  (∀ s t : State, s.init = true → step s = .next t → t.init = true)

/-- R9, R31: no step writes the configuration, which State holds by log 2. -/
def Obligations.ParametersAreNeverWritten : Prop :=
  ∀ s t : State, step s = .next t → t.cfg = s.cfg

/-- R27: TRACE only grows, at its end. -/
def Obligations.TraceOnlyGrows : Prop :=
  ∀ s t : State, step s = .next t → ∃ es, t.trace = s.trace ++ es

/-- Memory (R50, R61): the cell written reads as written and every other cell as before. That canonical buffers which
read alike are equal is of the model's own listing, in which an unlisted cell reads 0x00 (log 4). -/
def Obligations.MemoryReadsWhatWasWritten : Prop :=
  (∀ (m : Memory) (a b : Nat) (v : Byte), (m.write a v).read b = if b = a then v else m.read b) ∧
  (∀ m n : Memory, m.wf = true → n.wf = true → (∀ a, m.read a = n.read a) → m = n)

/-! ### Invariants -/

/-- Power-on meets every invariant. The buffer lists nothing where R34 leaves it unspecified (the model's choice,
log 4), and 255 device positions are listed (the model's choice, log 6). -/
def Obligations.ResetMeetsTheInvariants : Prop :=
  State.reset.CanonicalBuffer ∧ State.reset.Controlled ∧ State.reset.BufferInside ∧ State.reset.RowLayout ∧
    State.reset.WholeTransactions ∧ State.reset.ChainListed

/-- Every step keeps the buffer canonical. -/
def Obligations.StepKeepsBufferCanonical : Prop :=
  ∀ s t : State, s.CanonicalBuffer → step s = .next t → t.CanonicalBuffer

/-- Every step keeps the count legal (R21), the bus idle between commands (R33) and the buffer inside its store
(R23). -/
def Obligations.StepKeepsControl : Prop :=
  ∀ s t : State, s.Controlled ∧ s.BufferInside → step s = .next t → t.Controlled ∧ t.BufferInside

/-- Every step keeps the layout of R24: outside the degree rows only glyph columns and the two indicator bits are ever
lit. -/
def Obligations.StepKeepsRowLayout : Prop :=
  ∀ s t : State, s.RowLayout → step s = .next t → t.RowLayout

/-- Every step keeps TRACE a sequence of whole transactions that never name address 0xD or 0xE (R66, R73, R85). -/
def Obligations.StepKeepsWholeTransactions : Prop :=
  ∀ s t : State, s.WholeTransactions → step s = .next t → t.WholeTransactions

/-- Every step keeps all device positions listed (logs 6, 8). -/
def Obligations.StepKeepsChainListed : Prop :=
  ∀ s t : State, s.ChainListed → step s = .next t → t.ChainListed
end

