-- ==== Sys2Proof/Laws/Bits.lean ====
section
/-! SUPPORT. Fields of words: packing and unpacking a command word, its port bytes and a frame undo each other. -/

namespace Sys2Proof

/-! ### Command words -/

@[simp] theorem CmdFields.ofWord_toWord (f : CmdFields) : CmdFields.ofWord f.toWord = f := by
  obtain ⟨op, dev, reg, arg⟩ := f
  simp only [CmdFields.ofWord, CmdFields.toWord, CmdFields.mk.injEq]
  refine ⟨?_, ?_, ?_, ?_⟩
  · rw [BitVec.extractLsb'_append_eq_of_le (by omega), BitVec.extractLsb'_append_eq_of_le (by omega)]
    exact BitVec.extractLsb'_eq_self
  · rw [BitVec.extractLsb'_append_eq_of_le (by omega), BitVec.extractLsb'_append_eq_of_add_le (by omega)]
    exact BitVec.extractLsb'_eq_self
  · rw [BitVec.extractLsb'_append_eq_of_add_le (by omega), BitVec.extractLsb'_append_eq_of_le (by omega)]
    exact BitVec.extractLsb'_eq_self
  · rw [BitVec.extractLsb'_append_eq_of_add_le (by omega), BitVec.extractLsb'_append_eq_of_add_le (by omega)]
    exact BitVec.extractLsb'_eq_self

@[simp] theorem CmdFields.toWord_ofWord (w : Word) : (CmdFields.ofWord w).toWord = w := by
  simp only [CmdFields.ofWord, CmdFields.toWord]
  rw [BitVec.extractLsb'_append_extractLsb'_eq_extractLsb' (by omega),
    BitVec.extractLsb'_append_extractLsb'_eq_extractLsb' (by omega),
    BitVec.extractLsb'_append_extractLsb'_eq_extractLsb' (by omega)]
  exact BitVec.extractLsb'_eq_self

/-- The four bytes of a word are the word. -/
theorem joinWord_wordBytes (w : Word) :
    joinWord (w.extractLsb' 24 8) (w.extractLsb' 16 8) (w.extractLsb' 8 8) (w.extractLsb' 0 8) = w := by
  unfold joinWord
  rw [BitVec.extractLsb'_append_extractLsb'_eq_extractLsb' (by omega),
    BitVec.extractLsb'_append_extractLsb'_eq_extractLsb' (by omega),
    BitVec.extractLsb'_append_extractLsb'_eq_extractLsb' (by omega)]
  exact BitVec.extractLsb'_eq_self

theorem wordBytes_joinWord (b3 b2 b1 b0 : Byte) : wordBytes (joinWord b3 b2 b1 b0) = [b3, b2, b1, b0] := by
  unfold wordBytes joinWord
  rw [BitVec.extractLsb'_append_eq_of_le (by omega), BitVec.extractLsb'_append_eq_of_le (by omega),
    BitVec.extractLsb'_append_eq_of_le (by omega), BitVec.extractLsb'_append_eq_of_add_le (by omega),
    BitVec.extractLsb'_append_eq_of_add_le (by omega), BitVec.extractLsb'_append_eq_of_le (by omega),
    BitVec.extractLsb'_append_eq_of_add_le (by omega), BitVec.extractLsb'_append_eq_of_add_le (by omega)]
  simp only [Nat.sub_self, BitVec.extractLsb'_eq_self]

/-- The decoder reads a word's four port bytes as that word. -/
@[simp] theorem decode_wordBytes (w : Word) (rest : List Byte) : decode (wordBytes w ++ rest) = decodeCommand w rest := by
  simp only [wordBytes, List.cons_append, List.nil_append, decode, joinWord_wordBytes]

/-- With the payload whole, a command is what its word says, and what follows the payload is left. -/
theorem decodeCommand_payload {w : Word} {text : List Byte} (rest : List Byte) (h : text.length = payloadLength w) :
    decodeCommand w (text ++ rest) = (decodeWord w text).map fun i => (i, rest) := by
  rw [decodeCommand, if_neg (by simp [h]), ← h, List.take_left, List.drop_left]

theorem decodeCommand_short {w : Word} {rest : List Byte} (h : rest.length < payloadLength w) :
    decodeCommand w rest = .error .incompletePayload := by
  rw [decodeCommand, if_pos h]

@[simp] theorem payloadLength_toWord (f : CmdFields) :
    payloadLength f.toWord = if f.op = 0x5 then f.arg.toNat else 0 := by
  rw [payloadLength, CmdFields.ofWord_toWord]

/-! ### The argument field -/

@[simp] theorem argHigh_data (b : Byte) (op : BitVec 4) (dev : Byte) (reg : Addr) :
    CmdFields.argHigh { op := op, dev := dev, reg := reg, arg := 0#8 ++ b } = 0 :=
  BitVec.extractLsb'_append_eq_left

@[simp] theorem argLow_data (b : Byte) (op : BitVec 4) (dev : Byte) (reg : Addr) :
    CmdFields.argLow { op := op, dev := dev, reg := reg, arg := 0#8 ++ b } = b :=
  BitVec.extractLsb'_append_eq_right

theorem arg_of_argHigh (arg : BitVec 16) (h : arg.extractLsb' 8 8 = 0) : 0#8 ++ arg.extractLsb' 0 8 = arg := by
  rw [show (0#8) = arg.extractLsb' 8 8 from h.symm, BitVec.extractLsb'_append_extractLsb'_eq_extractLsb' (by omega)]
  exact BitVec.extractLsb'_eq_self

@[simp] theorem on_high (on : Bool) : ((0#15 ++ BitVec.ofBool on : BitVec 16)).extractLsb' 1 15 = 0 :=
  BitVec.extractLsb'_append_eq_left

@[simp] theorem on_low (on : Bool) : ((0#15 ++ BitVec.ofBool on : BitVec 16)).getLsbD 0 = on := by
  cases on <;> decide

theorem arg_of_on (arg : BitVec 16) (h : arg.extractLsb' 1 15 = 0) : 0#15 ++ BitVec.ofBool (arg.getLsbD 0) = arg := by
  have h0 : BitVec.ofBool (arg.getLsbD 0) = arg.extractLsb' 0 1 := by
    apply BitVec.eq_of_getLsbD_eq
    intro i hi
    obtain rfl : i = 0 := by omega
    simp
  rw [show (0#15) = arg.extractLsb' 1 15 from h.symm, h0, BitVec.extractLsb'_append_extractLsb'_eq_extractLsb' (by omega)]
  exact BitVec.extractLsb'_eq_self

/-! ### Masks and fields -/

theorem CmdFields.toWord_inj {f g : CmdFields} : f.toWord = g.toWord ↔ f = g :=
  ⟨fun h => by rw [← CmdFields.ofWord_toWord f, h, CmdFields.ofWord_toWord], fun h => by rw [h]⟩

theorem CmdFields.toWord_and (f m p : CmdFields) : f.toWord &&& m.toWord = p.toWord ↔
    f.op &&& m.op = p.op ∧ f.dev &&& m.dev = p.dev ∧ f.reg &&& m.reg = p.reg ∧ f.arg &&& m.arg = p.arg := by
  have : f.toWord &&& m.toWord = CmdFields.toWord ⟨f.op &&& m.op, f.dev &&& m.dev, f.reg &&& m.reg, f.arg &&& m.arg⟩ := by
    simp only [CmdFields.toWord]
    rw [BitVec.and_append, BitVec.and_append, BitVec.and_append]
  rw [this, CmdFields.toWord_inj]
  obtain ⟨a, b, c, d⟩ := p
  simp only [CmdFields.mk.injEq]

theorem and_high_eq_zero (x : BitVec 16) : x &&& 0xFF00 = 0 ↔ x.extractLsb' 8 8 = 0 := by
  constructor
  · intro h
    have := congrArg (fun y : BitVec 16 => y.extractLsb' 8 8) h
    simp only [BitVec.extractLsb'_and] at this
    have e : (BitVec.extractLsb' 8 8 (0xFF00 : BitVec 16)) = BitVec.allOnes 8 := by decide
    rw [e, BitVec.and_allOnes] at this
    rw [this]; decide
  · intro h
    rw [← arg_of_argHigh x h]
    generalize x.extractLsb' 0 8 = y
    rw [show (0xFF00 : BitVec 16) = 0xFF#8 ++ 0#8 from by decide, BitVec.and_append]
    simp

theorem and_above_eq_zero (x : BitVec 16) : x &&& 0xFFFE = 0 ↔ x.extractLsb' 1 15 = 0 := by
  constructor
  · intro h
    have := congrArg (fun y : BitVec 16 => y.extractLsb' 1 15) h
    simp only [BitVec.extractLsb'_and] at this
    have e : (BitVec.extractLsb' 1 15 (0xFFFE : BitVec 16)) = BitVec.allOnes 15 := by decide
    rw [e, BitVec.and_allOnes] at this
    rw [this]; decide
  · intro h
    rw [← arg_of_on x h]
    cases x.getLsbD 0 <;> decide

/-! ### Frames -/

@[simp] theorem frameAddr_word (f : Frame) : frameAddr f.word = f.addr := by
  unfold frameAddr Frame.word
  rw [BitVec.extractLsb'_append_eq_of_le (by omega), BitVec.extractLsb'_append_eq_of_add_le (by omega)]
  exact BitVec.extractLsb'_eq_self

@[simp] theorem frameData_word (f : Frame) : frameData f.word = f.data :=
  BitVec.extractLsb'_append_eq_right

@[simp] theorem frameNibble_word (f : Frame) : f.word.extractLsb' 12 4 = 0 := by
  unfold Frame.word
  rw [BitVec.extractLsb'_append_eq_of_le (by omega), BitVec.extractLsb'_append_eq_of_le (by omega)]
  exact BitVec.extractLsb'_eq_self

/-- A frame word whose high nibble is zero is the word of its own address and data. -/
theorem word_of_frame (f : FrameWord) (h : f.extractLsb' 12 4 = 0) :
    Frame.word { addr := frameAddr f, data := frameData f } = f := by
  unfold Frame.word frameAddr frameData
  rw [show (0#4) = f.extractLsb' 12 4 from h.symm, BitVec.extractLsb'_append_extractLsb'_eq_extractLsb' (by omega),
    BitVec.extractLsb'_append_extractLsb'_eq_extractLsb' (by omega)]
  exact BitVec.extractLsb'_eq_self

end Sys2Proof
end

