-- ==== Sys2Proof/Laws/Memory.lean ====
section
/-! SUPPORT. The laws of the Display Buffer's cells: what a read answers after a write, and that every write keeps
the canonical form. -/

namespace Sys2Proof.Machine

@[simp] theorem Memory.read_nil (a : Nat) : Memory.read [] a = Memory.fill := rfl

theorem Memory.read_cons (c : Host.Cell) (m : Memory) (a : Nat) :
    Memory.read (c :: m) a = if c.1 = a then c.2 else Memory.read m a := rfl

theorem Memory.read_entry_append (m : Memory) (a b : Nat) (v : Byte) :
    Memory.read (Memory.entry a v ++ m) b =
      if a = b ∧ v ≠ Memory.fill then v else Memory.read m b := by
  unfold Memory.entry
  by_cases hv : v = Memory.fill <;> simp [hv, Memory.read_cons]

/-- A list with no entry for `a` reads the fill value there. -/
theorem Memory.read_filter_same (m : Memory) (a : Nat) :
    Memory.read (m.filter fun c => c.1 != a) a = Memory.fill := by
  induction m with
  | nil => rfl
  | cons c m ih =>
    by_cases h : c.1 = a <;> simp [h, Memory.read_cons, ih]

theorem Memory.read_filter_other (m : Memory) {a b : Nat} (h : b ≠ a) :
    Memory.read (m.filter fun c => c.1 != a) b = Memory.read m b := by
  induction m with
  | nil => rfl
  | cons c m ih =>
    by_cases hc : c.1 = a
    · have : ¬ a = b := fun e => h e.symm
      simp [hc, Memory.read_cons, ih, this]
    · simp [hc, Memory.read_cons, ih]

theorem Memory.read_insert_other (m : Memory) {a b : Nat} (v : Byte) (h : b ≠ a) :
    Memory.read (Memory.insert m a v) b = Memory.read m b := by
  have hab : ¬ a = b := fun e => h e.symm
  induction m with
  | nil => simpa [Memory.insert, hab] using Memory.read_entry_append [] a b v
  | cons c m ih =>
    by_cases hc : c.1 < a
    · simp [Memory.insert, hc, Memory.read_cons, ih]
    · simp [Memory.insert, hc, Memory.read_entry_append, hab]

theorem Memory.read_insert_same (m : Memory) (a : Nat) (v : Byte) (h : Memory.read m a = Memory.fill)
    (hne : ∀ c ∈ m, c.1 ≠ a) : Memory.read (Memory.insert m a v) a = v := by
  induction m with
  | nil =>
    have := Memory.read_entry_append [] a a v
    by_cases hv : v = Memory.fill <;> simp_all [Memory.insert]
  | cons c m ih =>
    have hc : ¬ c.1 = a := hne c (by simp)
    by_cases hlt : c.1 < a
    · rw [Memory.read_cons, if_neg hc] at h
      simp [Memory.insert, hlt, Memory.read_cons, hc, ih h fun d hd => hne d (by simp [hd])]
    · by_cases hv : v = Memory.fill
      · simp [Memory.insert, hlt, Memory.read_entry_append, hv, h]
      · simp [Memory.insert, hlt, Memory.read_entry_append, hv]

/-- Reading the cell just written gives the value written. -/
@[simp] theorem Memory.read_write_same (m : Memory) (a : Nat) (v : Byte) : (m.write a v).read a = v := by
  refine Memory.read_insert_same _ a v (Memory.read_filter_same m a) ?_
  intro c hc
  simpa using (List.mem_filter.1 hc).2

/-- A write leaves every other cell alone. -/
theorem Memory.read_write_other (m : Memory) {a b : Nat} (v : Byte) (h : b ≠ a) :
    (m.write a v).read b = m.read b := by
  rw [Memory.write, Memory.read_insert_other _ v h, Memory.read_filter_other m h]

/-- What a read answers after a write. -/
theorem Memory.read_write (m : Memory) (a b : Nat) (v : Byte) :
    (m.write a v).read b = if b = a then v else m.read b := by
  by_cases h : b = a
  · simp [h]
  · simp [h, Memory.read_write_other]

/-! ### The canonical form -/

theorem Memory.wfFrom_cons (lo : Nat) (c : Host.Cell) (m : Memory) :
    Memory.wfFrom lo (c :: m) = true ↔ lo ≤ c.1 ∧ c.2 ≠ Memory.fill ∧ Memory.wfFrom (c.1 + 1) m = true := by
  simp [Memory.wfFrom, and_assoc]

theorem Memory.wfFrom_mono {lo lo' : Nat} {m : Memory} (h : lo' ≤ lo) (hm : Memory.wfFrom lo m = true) :
    Memory.wfFrom lo' m = true := by
  cases m with
  | nil => rfl
  | cons c m =>
    rw [Memory.wfFrom_cons] at hm ⊢
    exact ⟨h.trans hm.1, hm.2⟩

theorem Memory.wfFrom_filter {lo : Nat} {m : Memory} (p : Host.Cell → Bool) (hm : Memory.wfFrom lo m = true) :
    Memory.wfFrom lo (m.filter p) = true := by
  induction m generalizing lo with
  | nil => rfl
  | cons c m ih =>
    rw [Memory.wfFrom_cons] at hm
    by_cases hp : p c = true
    · rw [List.filter_cons_of_pos hp, Memory.wfFrom_cons]
      exact ⟨hm.1, hm.2.1, ih hm.2.2⟩
    · rw [List.filter_cons_of_neg hp]
      exact ih (Memory.wfFrom_mono (by omega) hm.2.2)

theorem Memory.wfFrom_entry_append {lo a : Nat} (v : Byte) {m : Memory} (ha : lo ≤ a)
    (hm : Memory.wfFrom (a + 1) m = true) : Memory.wfFrom lo (Memory.entry a v ++ m) = true := by
  unfold Memory.entry
  by_cases hv : v = Memory.fill
  · simpa [hv] using Memory.wfFrom_mono (by omega) hm
  · simpa [hv, Memory.wfFrom_cons] using ⟨ha, hm⟩

theorem Memory.wfFrom_insert {lo a : Nat} (v : Byte) {m : Memory} (ha : lo ≤ a) (hne : ∀ c ∈ m, c.1 ≠ a)
    (hm : Memory.wfFrom lo m = true) : Memory.wfFrom lo (Memory.insert m a v) = true := by
  induction m generalizing lo with
  | nil => simpa [Memory.insert] using Memory.wfFrom_entry_append v ha (m := []) rfl
  | cons c m ih =>
    rw [Memory.wfFrom_cons] at hm
    have hc := hne c (by simp)
    by_cases hlt : c.1 < a
    · rw [Memory.insert, if_pos hlt, Memory.wfFrom_cons]
      exact ⟨hm.1, hm.2.1, ih (by omega) (fun d hd => hne d (by simp [hd])) hm.2.2⟩
    · rw [Memory.insert, if_neg hlt]
      refine Memory.wfFrom_entry_append v ha ?_
      rw [Memory.wfFrom_cons]
      exact ⟨by omega, hm.2⟩

/-- A write keeps the canonical form. -/
theorem Memory.wf_write {m : Memory} (a : Nat) (v : Byte) (h : m.wf = true) : (m.write a v).wf = true := by
  refine Memory.wfFrom_insert v (Nat.zero_le a) ?_ (Memory.wfFrom_filter _ h)
  intro c hc
  simpa using (List.mem_filter.1 hc).2

/-- Below its first address a canonical memory reads the fill value. -/
theorem Memory.read_below {lo a : Nat} {m : Memory} (hm : Memory.wfFrom lo m = true) (h : a < lo) :
    m.read a = Memory.fill := by
  induction m generalizing lo with
  | nil => rfl
  | cons c m ih =>
    rw [Memory.wfFrom_cons] at hm
    rw [Memory.read_cons, if_neg (by omega)]
    exact ih hm.2.2 (by omega)

/-- Canonical memories that read alike are equal lists. -/
theorem Memory.eq_of_read_eq {lo : Nat} {m n : Memory} (hm : Memory.wfFrom lo m = true) (hn : Memory.wfFrom lo n = true)
    (h : ∀ a, m.read a = n.read a) : m = n := by
  induction m generalizing lo n with
  | nil =>
    cases n with
    | nil => rfl
    | cons c n =>
      rw [Memory.wfFrom_cons] at hn
      have := h c.1
      rw [Memory.read_cons, if_pos rfl] at this
      exact absurd this.symm hn.2.1
  | cons c m ih =>
    rw [Memory.wfFrom_cons] at hm
    cases n with
    | nil =>
      have := h c.1
      rw [Memory.read_cons, if_pos rfl] at this
      exact absurd this hm.2.1
    | cons e n =>
      rw [Memory.wfFrom_cons] at hn
      have hce : c.1 = e.1 := by
        rcases Nat.lt_trichotomy c.1 e.1 with hlt | heq | hgt
        · have := h c.1
          rw [Memory.read_cons, if_pos rfl, Memory.read_cons, if_neg (by omega),
            Memory.read_below hn.2.2 (by omega)] at this
          exact absurd this hm.2.1
        · exact heq
        · have := h e.1
          rw [Memory.read_cons, if_neg (by omega), Memory.read_below hm.2.2 (by omega), Memory.read_cons,
            if_pos rfl] at this
          exact absurd this.symm hn.2.1
      have hv : c.2 = e.2 := by
        have := h c.1
        rwa [Memory.read_cons, if_pos rfl, Memory.read_cons, if_pos hce.symm] at this
      have htail : m = n := by
        refine ih hm.2.2 (hce ▸ hn.2.2) fun a => ?_
        by_cases ha : a < c.1 + 1
        · rw [Memory.read_below hm.2.2 ha, Memory.read_below hn.2.2 (by omega)]
        · have := h a
          rwa [Memory.read_cons, if_neg (by omega), Memory.read_cons, if_neg (by omega)] at this
      rw [htail, Prod.ext hce hv]

end Sys2Proof.Machine
end

