-- ==== Sys2Proof/Laws/State.lean ====
section
/-! SUPPORT. One lemma per field per update of State. -/

namespace Sys2Proof.Machine

/-! ### setCell -/

@[simp] theorem State.setCell_cfg (s : State) (d r : Nat) (v : Byte) : (s.setCell d r v).cfg = s.cfg := rfl
@[simp] theorem State.setCell_init (s : State) (d r : Nat) (v : Byte) : (s.setCell d r v).init = s.init := rfl
@[simp] theorem State.setCell_ndev (s : State) (d r : Nat) (v : Byte) : (s.setCell d r v).ndev = s.ndev := rfl
@[simp] theorem State.setCell_buf (s : State) (d r : Nat) (v : Byte) : (s.setCell d r v).buf = s.buf.write (cellAddr d r) v := rfl
@[simp] theorem State.setCell_din (s : State) (d r : Nat) (v : Byte) : (s.setCell d r v).din = s.din := rfl
@[simp] theorem State.setCell_clk (s : State) (d r : Nat) (v : Byte) : (s.setCell d r v).clk = s.clk := rfl
@[simp] theorem State.setCell_cs (s : State) (d r : Nat) (v : Byte) : (s.setCell d r v).cs = s.cs := rfl
@[simp] theorem State.setCell_driven (s : State) (d r : Nat) (v : Byte) : (s.setCell d r v).driven = s.driven := rfl
@[simp] theorem State.setCell_fault (s : State) (d r : Nat) (v : Byte) : (s.setCell d r v).fault = s.fault := rfl
@[simp] theorem State.setCell_trace (s : State) (d r : Nat) (v : Byte) : (s.setCell d r v).trace = s.trace := rfl
@[simp] theorem State.setCell_chain (s : State) (d r : Nat) (v : Byte) : (s.setCell d r v).chain = s.chain := rfl
@[simp] theorem State.setCell_port (s : State) (d r : Nat) (v : Byte) : (s.setCell d r v).port = s.port := rfl
@[simp] theorem State.setCell_latchPending (s : State) (d r : Nat) (v : Byte) : (s.setCell d r v).latchPending = s.latchPending := rfl
@[simp] theorem State.setCell_latchPos (s : State) (d r : Nat) (v : Byte) : (s.setCell d r v).latchPos = s.latchPos := rfl
@[simp] theorem State.setCell_draws (s : State) (d r : Nat) (v : Byte) : (s.setCell d r v).draws = s.draws := rfl

/-! ### driveData -/

@[simp] theorem State.driveData_cfg (s : State) (b : Bool) : (s.driveData b).cfg = s.cfg := rfl
@[simp] theorem State.driveData_init (s : State) (b : Bool) : (s.driveData b).init = s.init := rfl
@[simp] theorem State.driveData_ndev (s : State) (b : Bool) : (s.driveData b).ndev = s.ndev := rfl
@[simp] theorem State.driveData_buf (s : State) (b : Bool) : (s.driveData b).buf = s.buf := rfl
@[simp] theorem State.driveData_din (s : State) (b : Bool) : (s.driveData b).din = b := rfl
@[simp] theorem State.driveData_clk (s : State) (b : Bool) : (s.driveData b).clk = s.clk := rfl
@[simp] theorem State.driveData_cs (s : State) (b : Bool) : (s.driveData b).cs = s.cs := rfl
@[simp] theorem State.driveData_driven (s : State) (b : Bool) : (s.driveData b).driven = s.driven := rfl
@[simp] theorem State.driveData_fault (s : State) (b : Bool) : (s.driveData b).fault = s.fault := rfl
@[simp] theorem State.driveData_trace (s : State) (b : Bool) : (s.driveData b).trace = s.trace := rfl
@[simp] theorem State.driveData_chain (s : State) (b : Bool) : (s.driveData b).chain = s.chain := rfl
@[simp] theorem State.driveData_port (s : State) (b : Bool) : (s.driveData b).port = s.port := rfl
@[simp] theorem State.driveData_latchPending (s : State) (b : Bool) : (s.driveData b).latchPending = s.latchPending := rfl
@[simp] theorem State.driveData_latchPos (s : State) (b : Bool) : (s.driveData b).latchPos = s.latchPos := rfl
@[simp] theorem State.driveData_draws (s : State) (b : Bool) : (s.driveData b).draws = s.draws := rfl

/-! ### clockRise -/

@[simp] theorem State.clockRise_cfg (s : State) : s.clockRise.cfg = s.cfg := rfl
@[simp] theorem State.clockRise_init (s : State) : s.clockRise.init = s.init := rfl
@[simp] theorem State.clockRise_ndev (s : State) : s.clockRise.ndev = s.ndev := rfl
@[simp] theorem State.clockRise_buf (s : State) : s.clockRise.buf = s.buf := rfl
@[simp] theorem State.clockRise_din (s : State) : s.clockRise.din = s.din := rfl
@[simp] theorem State.clockRise_clk (s : State) : s.clockRise.clk = true := rfl
@[simp] theorem State.clockRise_cs (s : State) : s.clockRise.cs = s.cs := rfl
@[simp] theorem State.clockRise_driven (s : State) : s.clockRise.driven = s.driven := rfl
@[simp] theorem State.clockRise_fault (s : State) : s.clockRise.fault = s.fault := rfl
@[simp] theorem State.clockRise_trace (s : State) : s.clockRise.trace = s.trace := rfl
@[simp] theorem State.clockRise_chain (s : State) : s.clockRise.chain = chainShift s.count s.din s.chain := rfl
@[simp] theorem State.clockRise_port (s : State) : s.clockRise.port = s.port := rfl
@[simp] theorem State.clockRise_latchPending (s : State) : s.clockRise.latchPending = s.latchPending := rfl
@[simp] theorem State.clockRise_latchPos (s : State) : s.clockRise.latchPos = s.latchPos := rfl
@[simp] theorem State.clockRise_draws (s : State) : s.clockRise.draws = s.draws := rfl

/-! ### clockFall -/

@[simp] theorem State.clockFall_cfg (s : State) : s.clockFall.cfg = s.cfg := rfl
@[simp] theorem State.clockFall_init (s : State) : s.clockFall.init = s.init := rfl
@[simp] theorem State.clockFall_ndev (s : State) : s.clockFall.ndev = s.ndev := rfl
@[simp] theorem State.clockFall_buf (s : State) : s.clockFall.buf = s.buf := rfl
@[simp] theorem State.clockFall_din (s : State) : s.clockFall.din = s.din := rfl
@[simp] theorem State.clockFall_clk (s : State) : s.clockFall.clk = false := rfl
@[simp] theorem State.clockFall_cs (s : State) : s.clockFall.cs = s.cs := rfl
@[simp] theorem State.clockFall_driven (s : State) : s.clockFall.driven = s.driven := rfl
@[simp] theorem State.clockFall_fault (s : State) : s.clockFall.fault = s.fault := rfl
@[simp] theorem State.clockFall_trace (s : State) : s.clockFall.trace = s.trace := rfl
@[simp] theorem State.clockFall_chain (s : State) : s.clockFall.chain = s.chain := rfl
@[simp] theorem State.clockFall_port (s : State) : s.clockFall.port = s.port := rfl
@[simp] theorem State.clockFall_latchPending (s : State) : s.clockFall.latchPending = s.latchPending := rfl
@[simp] theorem State.clockFall_latchPos (s : State) : s.clockFall.latchPos = s.latchPos := rfl
@[simp] theorem State.clockFall_draws (s : State) : s.clockFall.draws = s.draws := rfl

/-! ### record -/

@[simp] theorem State.record_cfg (s : State) (e : WireEvent) : (s.record e).cfg = s.cfg := rfl
@[simp] theorem State.record_init (s : State) (e : WireEvent) : (s.record e).init = s.init := rfl
@[simp] theorem State.record_ndev (s : State) (e : WireEvent) : (s.record e).ndev = s.ndev := rfl
@[simp] theorem State.record_buf (s : State) (e : WireEvent) : (s.record e).buf = s.buf := rfl
@[simp] theorem State.record_din (s : State) (e : WireEvent) : (s.record e).din = s.din := rfl
@[simp] theorem State.record_clk (s : State) (e : WireEvent) : (s.record e).clk = s.clk := rfl
@[simp] theorem State.record_cs (s : State) (e : WireEvent) : (s.record e).cs = s.cs := rfl
@[simp] theorem State.record_driven (s : State) (e : WireEvent) : (s.record e).driven = s.driven := rfl
@[simp] theorem State.record_fault (s : State) (e : WireEvent) : (s.record e).fault = s.fault := rfl
@[simp] theorem State.record_trace (s : State) (e : WireEvent) : (s.record e).trace = s.trace ++ [e] := rfl
@[simp] theorem State.record_chain (s : State) (e : WireEvent) : (s.record e).chain = s.chain := rfl
@[simp] theorem State.record_port (s : State) (e : WireEvent) : (s.record e).port = s.port := rfl
@[simp] theorem State.record_latchPending (s : State) (e : WireEvent) : (s.record e).latchPending = s.latchPending := rfl
@[simp] theorem State.record_latchPos (s : State) (e : WireEvent) : (s.record e).latchPos = s.latchPos := rfl
@[simp] theorem State.record_draws (s : State) (e : WireEvent) : (s.record e).draws = s.draws := rfl

/-! ### selectChip -/

@[simp] theorem State.selectChip_cfg (s : State) : s.selectChip.cfg = s.cfg := rfl
@[simp] theorem State.selectChip_init (s : State) : s.selectChip.init = s.init := rfl
@[simp] theorem State.selectChip_ndev (s : State) : s.selectChip.ndev = s.ndev := rfl
@[simp] theorem State.selectChip_buf (s : State) : s.selectChip.buf = s.buf := rfl
@[simp] theorem State.selectChip_din (s : State) : s.selectChip.din = s.din := rfl
@[simp] theorem State.selectChip_clk (s : State) : s.selectChip.clk = s.clk := rfl
@[simp] theorem State.selectChip_cs (s : State) : s.selectChip.cs = false := rfl
@[simp] theorem State.selectChip_driven (s : State) : s.selectChip.driven = s.driven := rfl
@[simp] theorem State.selectChip_fault (s : State) : s.selectChip.fault = s.fault := rfl
@[simp] theorem State.selectChip_trace (s : State) : s.selectChip.trace = s.trace := rfl
@[simp] theorem State.selectChip_chain (s : State) : s.selectChip.chain = s.chain := rfl
@[simp] theorem State.selectChip_port (s : State) : s.selectChip.port = s.port := rfl
@[simp] theorem State.selectChip_latchPending (s : State) : s.selectChip.latchPending = s.latchPending := rfl
@[simp] theorem State.selectChip_latchPos (s : State) : s.selectChip.latchPos = s.latchPos := rfl
@[simp] theorem State.selectChip_draws (s : State) : s.selectChip.draws = s.draws := rfl

/-! ### releaseChip -/

@[simp] theorem State.releaseChip_cfg (s : State) : s.releaseChip.cfg = s.cfg := rfl
@[simp] theorem State.releaseChip_init (s : State) : s.releaseChip.init = s.init := rfl
@[simp] theorem State.releaseChip_ndev (s : State) : s.releaseChip.ndev = s.ndev := rfl
@[simp] theorem State.releaseChip_buf (s : State) : s.releaseChip.buf = s.buf := rfl
@[simp] theorem State.releaseChip_din (s : State) : s.releaseChip.din = s.din := rfl
@[simp] theorem State.releaseChip_clk (s : State) : s.releaseChip.clk = s.clk := rfl
@[simp] theorem State.releaseChip_cs (s : State) : s.releaseChip.cs = true := rfl
@[simp] theorem State.releaseChip_driven (s : State) : s.releaseChip.driven = s.driven := rfl
@[simp] theorem State.releaseChip_fault (s : State) : s.releaseChip.fault = s.fault := rfl
@[simp] theorem State.releaseChip_trace (s : State) : s.releaseChip.trace = s.trace := rfl
@[simp] theorem State.releaseChip_chain (s : State) : s.releaseChip.chain = chainLatch s.count s.draws s.chain := rfl
@[simp] theorem State.releaseChip_port (s : State) : s.releaseChip.port = s.port := rfl
@[simp] theorem State.releaseChip_latchPending (s : State) : s.releaseChip.latchPending = s.latchPending := rfl
@[simp] theorem State.releaseChip_latchPos (s : State) : s.releaseChip.latchPos = s.latchPos := rfl
@[simp] theorem State.releaseChip_draws (s : State) : s.releaseChip.draws = if chainUnspecified s.count s.chain then s.draws + 1 else s.draws := rfl

/-! ### endLatch -/

@[simp] theorem State.endLatch_cfg (s : State) : s.endLatch.cfg = s.cfg := rfl
@[simp] theorem State.endLatch_init (s : State) : s.endLatch.init = s.init := rfl
@[simp] theorem State.endLatch_ndev (s : State) : s.endLatch.ndev = s.ndev := rfl
@[simp] theorem State.endLatch_buf (s : State) : s.endLatch.buf = s.buf := rfl
@[simp] theorem State.endLatch_din (s : State) : s.endLatch.din = s.din := rfl
@[simp] theorem State.endLatch_clk (s : State) : s.endLatch.clk = s.clk := rfl
@[simp] theorem State.endLatch_cs (s : State) : s.endLatch.cs = s.cs := rfl
@[simp] theorem State.endLatch_driven (s : State) : s.endLatch.driven = s.driven := rfl
@[simp] theorem State.endLatch_fault (s : State) : s.endLatch.fault = s.fault := rfl
@[simp] theorem State.endLatch_trace (s : State) : s.endLatch.trace = s.trace := rfl
@[simp] theorem State.endLatch_chain (s : State) : s.endLatch.chain = s.chain := rfl
@[simp] theorem State.endLatch_port (s : State) : s.endLatch.port = s.port := rfl
@[simp] theorem State.endLatch_latchPending (s : State) : s.endLatch.latchPending = false := rfl
@[simp] theorem State.endLatch_latchPos (s : State) : s.endLatch.latchPos = s.latchPos := rfl
@[simp] theorem State.endLatch_draws (s : State) : s.endLatch.draws = s.draws := rfl

/-! ### latchWith -/

@[simp] theorem State.latchWith_cfg (s : State) (f : Device → Device) : (s.latchWith f).cfg = s.cfg := rfl
@[simp] theorem State.latchWith_init (s : State) (f : Device → Device) : (s.latchWith f).init = s.init := rfl
@[simp] theorem State.latchWith_ndev (s : State) (f : Device → Device) : (s.latchWith f).ndev = s.ndev := rfl
@[simp] theorem State.latchWith_buf (s : State) (f : Device → Device) : (s.latchWith f).buf = s.buf := rfl
@[simp] theorem State.latchWith_din (s : State) (f : Device → Device) : (s.latchWith f).din = s.din := rfl
@[simp] theorem State.latchWith_clk (s : State) (f : Device → Device) : (s.latchWith f).clk = s.clk := rfl
@[simp] theorem State.latchWith_cs (s : State) (f : Device → Device) : (s.latchWith f).cs = s.cs := rfl
@[simp] theorem State.latchWith_driven (s : State) (f : Device → Device) : (s.latchWith f).driven = s.driven := rfl
@[simp] theorem State.latchWith_fault (s : State) (f : Device → Device) : (s.latchWith f).fault = s.fault := rfl
@[simp] theorem State.latchWith_trace (s : State) (f : Device → Device) : (s.latchWith f).trace = s.trace := rfl
@[simp] theorem State.latchWith_chain (s : State) (f : Device → Device) : (s.latchWith f).chain = s.chain.modify s.latchPos f := rfl
@[simp] theorem State.latchWith_port (s : State) (f : Device → Device) : (s.latchWith f).port = s.port := rfl
@[simp] theorem State.latchWith_latchPending (s : State) (f : Device → Device) : (s.latchWith f).latchPending = false := rfl
@[simp] theorem State.latchWith_latchPos (s : State) (f : Device → Device) : (s.latchWith f).latchPos = s.latchPos := rfl
@[simp] theorem State.latchWith_draws (s : State) (f : Device → Device) : (s.latchWith f).draws = s.draws := rfl

/-! ### latchUnspecified -/

@[simp] theorem State.latchUnspecified_cfg (s : State) : s.latchUnspecified.cfg = s.cfg := rfl
@[simp] theorem State.latchUnspecified_init (s : State) : s.latchUnspecified.init = s.init := rfl
@[simp] theorem State.latchUnspecified_ndev (s : State) : s.latchUnspecified.ndev = s.ndev := rfl
@[simp] theorem State.latchUnspecified_buf (s : State) : s.latchUnspecified.buf = s.buf := rfl
@[simp] theorem State.latchUnspecified_din (s : State) : s.latchUnspecified.din = s.din := rfl
@[simp] theorem State.latchUnspecified_clk (s : State) : s.latchUnspecified.clk = s.clk := rfl
@[simp] theorem State.latchUnspecified_cs (s : State) : s.latchUnspecified.cs = s.cs := rfl
@[simp] theorem State.latchUnspecified_driven (s : State) : s.latchUnspecified.driven = s.driven := rfl
@[simp] theorem State.latchUnspecified_fault (s : State) : s.latchUnspecified.fault = s.fault := rfl
@[simp] theorem State.latchUnspecified_trace (s : State) : s.latchUnspecified.trace = s.trace := rfl
@[simp] theorem State.latchUnspecified_chain (s : State) : s.latchUnspecified.chain = s.chain.modify s.latchPos fun _ => Config.freeDevice s.draws s.latchPos := rfl
@[simp] theorem State.latchUnspecified_port (s : State) : s.latchUnspecified.port = s.port := rfl
@[simp] theorem State.latchUnspecified_latchPending (s : State) : s.latchUnspecified.latchPending = false := rfl
@[simp] theorem State.latchUnspecified_latchPos (s : State) : s.latchUnspecified.latchPos = s.latchPos := rfl
@[simp] theorem State.latchUnspecified_draws (s : State) : s.latchUnspecified.draws = s.draws + 1 := rfl

/-! ### pinSetup -/

@[simp] theorem State.pinSetup_cfg (s : State) : s.pinSetup.cfg = s.cfg := rfl
@[simp] theorem State.pinSetup_init (s : State) : s.pinSetup.init = s.init := rfl
@[simp] theorem State.pinSetup_ndev (s : State) : s.pinSetup.ndev = s.ndev := rfl
@[simp] theorem State.pinSetup_buf (s : State) : s.pinSetup.buf = s.buf := rfl
@[simp] theorem State.pinSetup_din (s : State) : s.pinSetup.din = false := rfl
@[simp] theorem State.pinSetup_clk (s : State) : s.pinSetup.clk = false := rfl
@[simp] theorem State.pinSetup_cs (s : State) : s.pinSetup.cs = true := rfl
@[simp] theorem State.pinSetup_driven (s : State) : s.pinSetup.driven = true := rfl
@[simp] theorem State.pinSetup_fault (s : State) : s.pinSetup.fault = s.fault := rfl
@[simp] theorem State.pinSetup_trace (s : State) : s.pinSetup.trace = s.trace := rfl
@[simp] theorem State.pinSetup_chain (s : State) : s.pinSetup.chain = s.chain := rfl
@[simp] theorem State.pinSetup_port (s : State) : s.pinSetup.port = s.port := rfl
@[simp] theorem State.pinSetup_latchPending (s : State) : s.pinSetup.latchPending = s.latchPending := rfl
@[simp] theorem State.pinSetup_latchPos (s : State) : s.pinSetup.latchPos = s.latchPos := rfl
@[simp] theorem State.pinSetup_draws (s : State) : s.pinSetup.draws = s.draws := rfl

/-! ### setCount -/

@[simp] theorem State.setCount_cfg (s : State) (n : Byte) : (s.setCount n).cfg = s.cfg := rfl
@[simp] theorem State.setCount_init (s : State) (n : Byte) : (s.setCount n).init = s.init := rfl
@[simp] theorem State.setCount_ndev (s : State) (n : Byte) : (s.setCount n).ndev = n := rfl
@[simp] theorem State.setCount_buf (s : State) (n : Byte) : (s.setCount n).buf = s.buf := rfl
@[simp] theorem State.setCount_din (s : State) (n : Byte) : (s.setCount n).din = s.din := rfl
@[simp] theorem State.setCount_clk (s : State) (n : Byte) : (s.setCount n).clk = s.clk := rfl
@[simp] theorem State.setCount_cs (s : State) (n : Byte) : (s.setCount n).cs = s.cs := rfl
@[simp] theorem State.setCount_driven (s : State) (n : Byte) : (s.setCount n).driven = s.driven := rfl
@[simp] theorem State.setCount_fault (s : State) (n : Byte) : (s.setCount n).fault = s.fault := rfl
@[simp] theorem State.setCount_trace (s : State) (n : Byte) : (s.setCount n).trace = s.trace := rfl
@[simp] theorem State.setCount_chain (s : State) (n : Byte) : (s.setCount n).chain = s.chain := rfl
@[simp] theorem State.setCount_port (s : State) (n : Byte) : (s.setCount n).port = s.port := rfl
@[simp] theorem State.setCount_latchPending (s : State) (n : Byte) : (s.setCount n).latchPending = s.latchPending := rfl
@[simp] theorem State.setCount_latchPos (s : State) (n : Byte) : (s.setCount n).latchPos = s.latchPos := rfl
@[simp] theorem State.setCount_draws (s : State) (n : Byte) : (s.setCount n).draws = s.draws := rfl

/-! ### markInit -/

@[simp] theorem State.markInit_cfg (s : State) : s.markInit.cfg = s.cfg := rfl
@[simp] theorem State.markInit_init (s : State) : s.markInit.init = true := rfl
@[simp] theorem State.markInit_ndev (s : State) : s.markInit.ndev = s.ndev := rfl
@[simp] theorem State.markInit_buf (s : State) : s.markInit.buf = s.buf := rfl
@[simp] theorem State.markInit_din (s : State) : s.markInit.din = s.din := rfl
@[simp] theorem State.markInit_clk (s : State) : s.markInit.clk = s.clk := rfl
@[simp] theorem State.markInit_cs (s : State) : s.markInit.cs = s.cs := rfl
@[simp] theorem State.markInit_driven (s : State) : s.markInit.driven = s.driven := rfl
@[simp] theorem State.markInit_fault (s : State) : s.markInit.fault = s.fault := rfl
@[simp] theorem State.markInit_trace (s : State) : s.markInit.trace = s.trace := rfl
@[simp] theorem State.markInit_chain (s : State) : s.markInit.chain = s.chain := rfl
@[simp] theorem State.markInit_port (s : State) : s.markInit.port = s.port := rfl
@[simp] theorem State.markInit_latchPending (s : State) : s.markInit.latchPending = s.latchPending := rfl
@[simp] theorem State.markInit_latchPos (s : State) : s.markInit.latchPos = s.latchPos := rfl
@[simp] theorem State.markInit_draws (s : State) : s.markInit.draws = s.draws := rfl

/-! ### What the buffer operations leave alone -/

@[simp] theorem State.setRowsFrom_cfg (s : State) (d r : Nat) (vs : List Byte) : (s.setRowsFrom d r vs).cfg = s.cfg := by
  induction vs generalizing r s with
  | nil => rfl
  | cons v vs ih => exact ih (s.setCell d r v) (r + 1)

@[simp] theorem State.setRows_cfg (s : State) (d : Nat) (vs : List Byte) : (s.setRows d vs).cfg = s.cfg :=
  State.setRowsFrom_cfg s d 0 vs

@[simp] theorem State.setRowsFrom_init (s : State) (d r : Nat) (vs : List Byte) : (s.setRowsFrom d r vs).init = s.init := by
  induction vs generalizing r s with
  | nil => rfl
  | cons v vs ih => exact ih (s.setCell d r v) (r + 1)

@[simp] theorem State.setRows_init (s : State) (d : Nat) (vs : List Byte) : (s.setRows d vs).init = s.init :=
  State.setRowsFrom_init s d 0 vs

@[simp] theorem State.setRowsFrom_ndev (s : State) (d r : Nat) (vs : List Byte) : (s.setRowsFrom d r vs).ndev = s.ndev := by
  induction vs generalizing r s with
  | nil => rfl
  | cons v vs ih => exact ih (s.setCell d r v) (r + 1)

@[simp] theorem State.setRows_ndev (s : State) (d : Nat) (vs : List Byte) : (s.setRows d vs).ndev = s.ndev :=
  State.setRowsFrom_ndev s d 0 vs

@[simp] theorem State.setRowsFrom_din (s : State) (d r : Nat) (vs : List Byte) : (s.setRowsFrom d r vs).din = s.din := by
  induction vs generalizing r s with
  | nil => rfl
  | cons v vs ih => exact ih (s.setCell d r v) (r + 1)

@[simp] theorem State.setRows_din (s : State) (d : Nat) (vs : List Byte) : (s.setRows d vs).din = s.din :=
  State.setRowsFrom_din s d 0 vs

@[simp] theorem State.setRowsFrom_clk (s : State) (d r : Nat) (vs : List Byte) : (s.setRowsFrom d r vs).clk = s.clk := by
  induction vs generalizing r s with
  | nil => rfl
  | cons v vs ih => exact ih (s.setCell d r v) (r + 1)

@[simp] theorem State.setRows_clk (s : State) (d : Nat) (vs : List Byte) : (s.setRows d vs).clk = s.clk :=
  State.setRowsFrom_clk s d 0 vs

@[simp] theorem State.setRowsFrom_cs (s : State) (d r : Nat) (vs : List Byte) : (s.setRowsFrom d r vs).cs = s.cs := by
  induction vs generalizing r s with
  | nil => rfl
  | cons v vs ih => exact ih (s.setCell d r v) (r + 1)

@[simp] theorem State.setRows_cs (s : State) (d : Nat) (vs : List Byte) : (s.setRows d vs).cs = s.cs :=
  State.setRowsFrom_cs s d 0 vs

@[simp] theorem State.setRowsFrom_driven (s : State) (d r : Nat) (vs : List Byte) : (s.setRowsFrom d r vs).driven = s.driven := by
  induction vs generalizing r s with
  | nil => rfl
  | cons v vs ih => exact ih (s.setCell d r v) (r + 1)

@[simp] theorem State.setRows_driven (s : State) (d : Nat) (vs : List Byte) : (s.setRows d vs).driven = s.driven :=
  State.setRowsFrom_driven s d 0 vs

@[simp] theorem State.setRowsFrom_fault (s : State) (d r : Nat) (vs : List Byte) : (s.setRowsFrom d r vs).fault = s.fault := by
  induction vs generalizing r s with
  | nil => rfl
  | cons v vs ih => exact ih (s.setCell d r v) (r + 1)

@[simp] theorem State.setRows_fault (s : State) (d : Nat) (vs : List Byte) : (s.setRows d vs).fault = s.fault :=
  State.setRowsFrom_fault s d 0 vs

@[simp] theorem State.setRowsFrom_trace (s : State) (d r : Nat) (vs : List Byte) : (s.setRowsFrom d r vs).trace = s.trace := by
  induction vs generalizing r s with
  | nil => rfl
  | cons v vs ih => exact ih (s.setCell d r v) (r + 1)

@[simp] theorem State.setRows_trace (s : State) (d : Nat) (vs : List Byte) : (s.setRows d vs).trace = s.trace :=
  State.setRowsFrom_trace s d 0 vs

@[simp] theorem State.setRowsFrom_chain (s : State) (d r : Nat) (vs : List Byte) : (s.setRowsFrom d r vs).chain = s.chain := by
  induction vs generalizing r s with
  | nil => rfl
  | cons v vs ih => exact ih (s.setCell d r v) (r + 1)

@[simp] theorem State.setRows_chain (s : State) (d : Nat) (vs : List Byte) : (s.setRows d vs).chain = s.chain :=
  State.setRowsFrom_chain s d 0 vs

@[simp] theorem State.setRowsFrom_port (s : State) (d r : Nat) (vs : List Byte) : (s.setRowsFrom d r vs).port = s.port := by
  induction vs generalizing r s with
  | nil => rfl
  | cons v vs ih => exact ih (s.setCell d r v) (r + 1)

@[simp] theorem State.setRows_port (s : State) (d : Nat) (vs : List Byte) : (s.setRows d vs).port = s.port :=
  State.setRowsFrom_port s d 0 vs

@[simp] theorem State.setRowsFrom_latchPending (s : State) (d r : Nat) (vs : List Byte) : (s.setRowsFrom d r vs).latchPending = s.latchPending := by
  induction vs generalizing r s with
  | nil => rfl
  | cons v vs ih => exact ih (s.setCell d r v) (r + 1)

@[simp] theorem State.setRows_latchPending (s : State) (d : Nat) (vs : List Byte) : (s.setRows d vs).latchPending = s.latchPending :=
  State.setRowsFrom_latchPending s d 0 vs

@[simp] theorem State.setRowsFrom_latchPos (s : State) (d r : Nat) (vs : List Byte) : (s.setRowsFrom d r vs).latchPos = s.latchPos := by
  induction vs generalizing r s with
  | nil => rfl
  | cons v vs ih => exact ih (s.setCell d r v) (r + 1)

@[simp] theorem State.setRows_latchPos (s : State) (d : Nat) (vs : List Byte) : (s.setRows d vs).latchPos = s.latchPos :=
  State.setRowsFrom_latchPos s d 0 vs

@[simp] theorem State.setRowsFrom_draws (s : State) (d r : Nat) (vs : List Byte) : (s.setRowsFrom d r vs).draws = s.draws := by
  induction vs generalizing r s with
  | nil => rfl
  | cons v vs ih => exact ih (s.setCell d r v) (r + 1)

@[simp] theorem State.setRows_draws (s : State) (d : Nat) (vs : List Byte) : (s.setRows d vs).draws = s.draws :=
  State.setRowsFrom_draws s d 0 vs

/-- A property of the state that each turn of a loop keeps is kept by the loop. -/
theorem foldl_keeps {α β : Type} (p : α → β) (g : α → Nat → α) (h : ∀ s d, p (g s d) = p s) (l : List Nat) (s : α) :
    p (l.foldl g s) = p s := by
  induction l generalizing s with
  | nil => rfl
  | cons d l ih => rw [List.foldl_cons, ih, h]

@[simp] theorem State.fillDevices_cfg (s : State) (n : Nat) (c : Nat → List Byte) : (s.fillDevices n c).cfg = s.cfg :=
  foldl_keeps State.cfg _ (fun s d => State.setRows_cfg s d (c d)) _ s

@[simp] theorem State.clearIndicators_cfg (s : State) (n : Nat) : (s.clearIndicators n).cfg = s.cfg :=
  foldl_keeps State.cfg _ (fun s d => State.setCell_cfg s d indicatorRow 0x00) _ s

@[simp] theorem State.fillDevices_init (s : State) (n : Nat) (c : Nat → List Byte) : (s.fillDevices n c).init = s.init :=
  foldl_keeps State.init _ (fun s d => State.setRows_init s d (c d)) _ s

@[simp] theorem State.clearIndicators_init (s : State) (n : Nat) : (s.clearIndicators n).init = s.init :=
  foldl_keeps State.init _ (fun s d => State.setCell_init s d indicatorRow 0x00) _ s

@[simp] theorem State.fillDevices_ndev (s : State) (n : Nat) (c : Nat → List Byte) : (s.fillDevices n c).ndev = s.ndev :=
  foldl_keeps State.ndev _ (fun s d => State.setRows_ndev s d (c d)) _ s

@[simp] theorem State.clearIndicators_ndev (s : State) (n : Nat) : (s.clearIndicators n).ndev = s.ndev :=
  foldl_keeps State.ndev _ (fun s d => State.setCell_ndev s d indicatorRow 0x00) _ s

@[simp] theorem State.fillDevices_din (s : State) (n : Nat) (c : Nat → List Byte) : (s.fillDevices n c).din = s.din :=
  foldl_keeps State.din _ (fun s d => State.setRows_din s d (c d)) _ s

@[simp] theorem State.clearIndicators_din (s : State) (n : Nat) : (s.clearIndicators n).din = s.din :=
  foldl_keeps State.din _ (fun s d => State.setCell_din s d indicatorRow 0x00) _ s

@[simp] theorem State.fillDevices_clk (s : State) (n : Nat) (c : Nat → List Byte) : (s.fillDevices n c).clk = s.clk :=
  foldl_keeps State.clk _ (fun s d => State.setRows_clk s d (c d)) _ s

@[simp] theorem State.clearIndicators_clk (s : State) (n : Nat) : (s.clearIndicators n).clk = s.clk :=
  foldl_keeps State.clk _ (fun s d => State.setCell_clk s d indicatorRow 0x00) _ s

@[simp] theorem State.fillDevices_cs (s : State) (n : Nat) (c : Nat → List Byte) : (s.fillDevices n c).cs = s.cs :=
  foldl_keeps State.cs _ (fun s d => State.setRows_cs s d (c d)) _ s

@[simp] theorem State.clearIndicators_cs (s : State) (n : Nat) : (s.clearIndicators n).cs = s.cs :=
  foldl_keeps State.cs _ (fun s d => State.setCell_cs s d indicatorRow 0x00) _ s

@[simp] theorem State.fillDevices_driven (s : State) (n : Nat) (c : Nat → List Byte) : (s.fillDevices n c).driven = s.driven :=
  foldl_keeps State.driven _ (fun s d => State.setRows_driven s d (c d)) _ s

@[simp] theorem State.clearIndicators_driven (s : State) (n : Nat) : (s.clearIndicators n).driven = s.driven :=
  foldl_keeps State.driven _ (fun s d => State.setCell_driven s d indicatorRow 0x00) _ s

@[simp] theorem State.fillDevices_fault (s : State) (n : Nat) (c : Nat → List Byte) : (s.fillDevices n c).fault = s.fault :=
  foldl_keeps State.fault _ (fun s d => State.setRows_fault s d (c d)) _ s

@[simp] theorem State.clearIndicators_fault (s : State) (n : Nat) : (s.clearIndicators n).fault = s.fault :=
  foldl_keeps State.fault _ (fun s d => State.setCell_fault s d indicatorRow 0x00) _ s

@[simp] theorem State.fillDevices_trace (s : State) (n : Nat) (c : Nat → List Byte) : (s.fillDevices n c).trace = s.trace :=
  foldl_keeps State.trace _ (fun s d => State.setRows_trace s d (c d)) _ s

@[simp] theorem State.clearIndicators_trace (s : State) (n : Nat) : (s.clearIndicators n).trace = s.trace :=
  foldl_keeps State.trace _ (fun s d => State.setCell_trace s d indicatorRow 0x00) _ s

@[simp] theorem State.fillDevices_chain (s : State) (n : Nat) (c : Nat → List Byte) : (s.fillDevices n c).chain = s.chain :=
  foldl_keeps State.chain _ (fun s d => State.setRows_chain s d (c d)) _ s

@[simp] theorem State.clearIndicators_chain (s : State) (n : Nat) : (s.clearIndicators n).chain = s.chain :=
  foldl_keeps State.chain _ (fun s d => State.setCell_chain s d indicatorRow 0x00) _ s

@[simp] theorem State.fillDevices_port (s : State) (n : Nat) (c : Nat → List Byte) : (s.fillDevices n c).port = s.port :=
  foldl_keeps State.port _ (fun s d => State.setRows_port s d (c d)) _ s

@[simp] theorem State.clearIndicators_port (s : State) (n : Nat) : (s.clearIndicators n).port = s.port :=
  foldl_keeps State.port _ (fun s d => State.setCell_port s d indicatorRow 0x00) _ s

@[simp] theorem State.fillDevices_latchPending (s : State) (n : Nat) (c : Nat → List Byte) : (s.fillDevices n c).latchPending = s.latchPending :=
  foldl_keeps State.latchPending _ (fun s d => State.setRows_latchPending s d (c d)) _ s

@[simp] theorem State.clearIndicators_latchPending (s : State) (n : Nat) : (s.clearIndicators n).latchPending = s.latchPending :=
  foldl_keeps State.latchPending _ (fun s d => State.setCell_latchPending s d indicatorRow 0x00) _ s

@[simp] theorem State.fillDevices_latchPos (s : State) (n : Nat) (c : Nat → List Byte) : (s.fillDevices n c).latchPos = s.latchPos :=
  foldl_keeps State.latchPos _ (fun s d => State.setRows_latchPos s d (c d)) _ s

@[simp] theorem State.clearIndicators_latchPos (s : State) (n : Nat) : (s.clearIndicators n).latchPos = s.latchPos :=
  foldl_keeps State.latchPos _ (fun s d => State.setCell_latchPos s d indicatorRow 0x00) _ s

@[simp] theorem State.fillDevices_draws (s : State) (n : Nat) (c : Nat → List Byte) : (s.fillDevices n c).draws = s.draws :=
  foldl_keeps State.draws _ (fun s d => State.setRows_draws s d (c d)) _ s

@[simp] theorem State.clearIndicators_draws (s : State) (n : Nat) : (s.clearIndicators n).draws = s.draws :=
  foldl_keeps State.draws _ (fun s d => State.setCell_draws s d indicatorRow 0x00) _ s

/-! ### What the wire operations leave alone -/

@[simp] theorem State.emit_cfg (s : State) (e : WireEvent) : (s.emit e).cfg = s.cfg := by cases e <;> rfl

@[simp] theorem State.emitAll_cfg (s : State) (es : List WireEvent) : (s.emitAll es).cfg = s.cfg := by
  induction es generalizing s with
  | nil => rfl
  | cons e es ih => exact (ih (s.emit e)).trans (s.emit_cfg e)

@[simp] theorem State.transaction_cfg (s : State) (fs : List Frame) : (s.transaction fs).cfg = s.cfg :=
  s.emitAll_cfg (transactionEvents fs)

@[simp] theorem State.emit_init (s : State) (e : WireEvent) : (s.emit e).init = s.init := by cases e <;> rfl

@[simp] theorem State.emitAll_init (s : State) (es : List WireEvent) : (s.emitAll es).init = s.init := by
  induction es generalizing s with
  | nil => rfl
  | cons e es ih => exact (ih (s.emit e)).trans (s.emit_init e)

@[simp] theorem State.transaction_init (s : State) (fs : List Frame) : (s.transaction fs).init = s.init :=
  s.emitAll_init (transactionEvents fs)

@[simp] theorem State.emit_ndev (s : State) (e : WireEvent) : (s.emit e).ndev = s.ndev := by cases e <;> rfl

@[simp] theorem State.emitAll_ndev (s : State) (es : List WireEvent) : (s.emitAll es).ndev = s.ndev := by
  induction es generalizing s with
  | nil => rfl
  | cons e es ih => exact (ih (s.emit e)).trans (s.emit_ndev e)

@[simp] theorem State.transaction_ndev (s : State) (fs : List Frame) : (s.transaction fs).ndev = s.ndev :=
  s.emitAll_ndev (transactionEvents fs)

@[simp] theorem State.emit_buf (s : State) (e : WireEvent) : (s.emit e).buf = s.buf := by cases e <;> rfl

@[simp] theorem State.emitAll_buf (s : State) (es : List WireEvent) : (s.emitAll es).buf = s.buf := by
  induction es generalizing s with
  | nil => rfl
  | cons e es ih => exact (ih (s.emit e)).trans (s.emit_buf e)

@[simp] theorem State.transaction_buf (s : State) (fs : List Frame) : (s.transaction fs).buf = s.buf :=
  s.emitAll_buf (transactionEvents fs)

@[simp] theorem State.emit_driven (s : State) (e : WireEvent) : (s.emit e).driven = s.driven := by cases e <;> rfl

@[simp] theorem State.emitAll_driven (s : State) (es : List WireEvent) : (s.emitAll es).driven = s.driven := by
  induction es generalizing s with
  | nil => rfl
  | cons e es ih => exact (ih (s.emit e)).trans (s.emit_driven e)

@[simp] theorem State.transaction_driven (s : State) (fs : List Frame) : (s.transaction fs).driven = s.driven :=
  s.emitAll_driven (transactionEvents fs)

@[simp] theorem State.emit_fault (s : State) (e : WireEvent) : (s.emit e).fault = s.fault := by cases e <;> rfl

@[simp] theorem State.emitAll_fault (s : State) (es : List WireEvent) : (s.emitAll es).fault = s.fault := by
  induction es generalizing s with
  | nil => rfl
  | cons e es ih => exact (ih (s.emit e)).trans (s.emit_fault e)

@[simp] theorem State.transaction_fault (s : State) (fs : List Frame) : (s.transaction fs).fault = s.fault :=
  s.emitAll_fault (transactionEvents fs)

@[simp] theorem State.emit_port (s : State) (e : WireEvent) : (s.emit e).port = s.port := by cases e <;> rfl

@[simp] theorem State.emitAll_port (s : State) (es : List WireEvent) : (s.emitAll es).port = s.port := by
  induction es generalizing s with
  | nil => rfl
  | cons e es ih => exact (ih (s.emit e)).trans (s.emit_port e)

@[simp] theorem State.transaction_port (s : State) (fs : List Frame) : (s.transaction fs).port = s.port :=
  s.emitAll_port (transactionEvents fs)

@[simp] theorem State.emit_latchPending (s : State) (e : WireEvent) : (s.emit e).latchPending = s.latchPending := by cases e <;> rfl

@[simp] theorem State.emitAll_latchPending (s : State) (es : List WireEvent) : (s.emitAll es).latchPending = s.latchPending := by
  induction es generalizing s with
  | nil => rfl
  | cons e es ih => exact (ih (s.emit e)).trans (s.emit_latchPending e)

@[simp] theorem State.transaction_latchPending (s : State) (fs : List Frame) : (s.transaction fs).latchPending = s.latchPending :=
  s.emitAll_latchPending (transactionEvents fs)

@[simp] theorem State.emit_latchPos (s : State) (e : WireEvent) : (s.emit e).latchPos = s.latchPos := by cases e <;> rfl

@[simp] theorem State.emitAll_latchPos (s : State) (es : List WireEvent) : (s.emitAll es).latchPos = s.latchPos := by
  induction es generalizing s with
  | nil => rfl
  | cons e es ih => exact (ih (s.emit e)).trans (s.emit_latchPos e)

@[simp] theorem State.transaction_latchPos (s : State) (fs : List Frame) : (s.transaction fs).latchPos = s.latchPos :=
  s.emitAll_latchPos (transactionEvents fs)

@[simp] theorem State.setCell_count (s : State) (d r : Nat) (v : Byte) : (s.setCell d r v).count = s.count := rfl

@[simp] theorem State.fillDevices_count (s : State) (n : Nat) (c : Nat → List Byte) : (s.fillDevices n c).count = s.count := by
  simp [State.count]

@[simp] theorem State.transaction_count (s : State) (fs : List Frame) : (s.transaction fs).count = s.count := by
  simp [State.count]

@[simp] theorem State.transaction_cell (s : State) (fs : List Frame) (d r : Nat) :
    (s.transaction fs).cell d r = s.cell d r := by
  simp [State.cell]

end Sys2Proof.Machine
end

