-- ==== Sys2Proof/Laws/Buffer.lean ====
section
/-! SUPPORT. What each buffer operation writes, cell by cell, and that each keeps the canonical form. -/

namespace Sys2Proof.Machine

theorem cellAddr_inj {d r d' r' : Nat} (hr : r < 8) (hr' : r' < 8) : cellAddr d r = cellAddr d' r' ↔ d = d' ∧ r = r' := by
  simp only [cellAddr, rows]
  omega

theorem State.cell_setCell (s : State) {d r d' r' : Nat} (v : Byte) (hr : r < 8) (hr' : r' < 8) :
    (s.setCell d r v).cell d' r' = if d' = d ∧ r' = r then v else s.cell d' r' := by
  simp [State.cell, Memory.read_write, cellAddr_inj hr' hr]

/-- The rows written are those of the list; every other cell is as before. -/
theorem State.cell_setRowsFrom (s : State) {d r d' r' : Nat} (vs : List Byte) (h : r + vs.length ≤ 8) (hr' : r' < 8) :
    (s.setRowsFrom d r vs).cell d' r' =
      if d' = d ∧ r ≤ r' ∧ r' < r + vs.length then vs.getD (r' - r) 0 else s.cell d' r' := by
  induction vs generalizing r s with
  | nil =>
    have : ¬ (r ≤ r' ∧ r' < r) := by omega
    simp [State.setRowsFrom, this]
  | cons v vs ih =>
    simp only [List.length_cons] at h
    rw [State.setRowsFrom, ih (s.setCell d r v) (by omega), State.cell_setCell s v (by omega) hr']
    by_cases hd : d' = d
    · by_cases heq : r' = r
      · subst heq
        have : ¬ (r' + 1 ≤ r') := by omega
        simp [hd]
      · by_cases hin : r + 1 ≤ r' ∧ r' < r + 1 + vs.length
        · obtain ⟨k, rfl⟩ : ∃ k, r' = r + 1 + k := ⟨r' - (r + 1), by omega⟩
          have h1 : r + 1 + k - r = k + 1 := by omega
          have h2 : r ≤ r + 1 + k ∧ r + 1 + k < r + (vs.length + 1) := by omega
          simp [hd, hin.2, h1, h2]
        · have h2 : ¬ (r ≤ r' ∧ r' < r + (vs.length + 1)) := by omega
          rw [if_neg (fun h => hin h.2), if_neg (fun h => heq h.2), if_neg (fun h => h2 h.2)]
    · simp [hd]

theorem State.cell_setRows (s : State) {d d' r' : Nat} (vs : List Byte) (h : vs.length ≤ 8) (hr' : r' < 8) :
    (s.setRows d vs).cell d' r' = if d' = d ∧ r' < vs.length then vs.getD r' 0 else s.cell d' r' := by
  have := State.cell_setRowsFrom s (d := d) (r := 0) (d' := d') vs (by omega) hr'
  simpa [State.setRows] using this

/-- A loop over devices `0..n-1` that gives each its rows. -/
theorem State.cell_fillDevices (s : State) (n : Nat) {d r : Nat} (c : Nat → List Byte) (h : ∀ d, (c d).length = 8)
    (hr : r < 8) : (s.fillDevices n c).cell d r = if d < n then (c d).getD r 0 else s.cell d r := by
  induction n with
  | zero => rfl
  | succ n ih =>
    have hs : s.fillDevices (n + 1) c = (s.fillDevices n c).setRows n (c n) := by
      simp [State.fillDevices, List.range_succ]
    rw [hs, State.cell_setRows _ _ (by rw [h]) hr, ih, h]
    by_cases hd : d = n
    · simp [hd, hr]
    · have : d < n + 1 ↔ d < n := by omega
      simp [hd, this]

theorem State.cell_clearIndicators (s : State) (n : Nat) {d r : Nat} (hr : r < 8) :
    (s.clearIndicators n).cell d r = if d < n ∧ r = 7 then 0x00 else s.cell d r := by
  induction n with
  | zero => rfl
  | succ n ih =>
    have hs : s.clearIndicators (n + 1) = (s.clearIndicators n).setCell n indicatorRow 0x00 := by
      simp [State.clearIndicators, List.range_succ]
    rw [hs, State.cell_setCell _ _ (by decide) hr, ih, indicatorRow]
    by_cases hd : d = n
    · by_cases h7 : r = 7 <;> simp [hd, h7]
    · have : d < n + 1 ↔ d < n := by omega
      simp [hd, this]

/-! ### The canonical form -/

theorem State.wf_setRowsFrom {s : State} (d r : Nat) (vs : List Byte) (h : s.buf.wf = true) :
    (s.setRowsFrom d r vs).buf.wf = true := by
  induction vs generalizing r s with
  | nil => exact h
  | cons v vs ih => exact ih (r + 1) (Memory.wf_write _ _ h)

theorem State.wf_setRows {s : State} (d : Nat) (vs : List Byte) (h : s.buf.wf = true) :
    (s.setRows d vs).buf.wf = true :=
  State.wf_setRowsFrom d 0 vs h

theorem State.wf_fillDevices {s : State} (n : Nat) (c : Nat → List Byte) (h : s.buf.wf = true) :
    (s.fillDevices n c).buf.wf = true := by
  unfold State.fillDevices
  generalize List.range n = l
  induction l generalizing s with
  | nil => exact h
  | cons d l ih => exact ih (State.wf_setRows d (c d) h)

theorem State.wf_clearIndicators {s : State} (n : Nat) (h : s.buf.wf = true) : (s.clearIndicators n).buf.wf = true := by
  unfold State.clearIndicators
  generalize List.range n = l
  induction l generalizing s with
  | nil => exact h
  | cons d l ih => exact ih (Memory.wf_write _ _ h)

/-! ### The rows of glyphs and characters -/

@[simp] theorem glyphRows_length (p : Glyph) : (glyphRows p).length = 8 := by simp [glyphRows]

@[simp] theorem blankRows_length : blankRows.length = 8 := rfl

@[simp] theorem charRows_length (cfg : Config) (ch : Option Byte) : (charRows cfg ch).length = 8 := by
  cases ch with
  | none => rfl
  | some ch => simp only [charRows, digitCharRows, letterRows]; split <;> [skip; split] <;> simp

theorem blankRows_getD (r : Nat) : blankRows.getD r 0 = 0 := by
  simp only [blankRows, List.getD_eq_getElem?_getD, List.getElem?_replicate]
  split <;> rfl

theorem glyphRows_getD (p : Glyph) {r : Nat} (hr : r < 8) :
    (glyphRows p).getD r 0 = if r < 7 then glyphRow p r else 0 := by
  by_cases h : r < 7
  · simp [glyphRows, List.getD_eq_getElem?_getD, List.getElem?_append, h]
  · obtain rfl : r = 7 := by omega
    simp [glyphRows, List.getD_eq_getElem?_getD]

/-- A glyph row is its font row two columns to the right. -/
theorem glyphRow_eq (p : Glyph) (r : Nat) : glyphRow p r = ((p[r]?.getD 0).setWidth 8) <<< 2 := by
  have key : ∀ x : BitVec 5,
      (List.range 5).foldl (fun acc c => acc ||| (if x.getLsbD c then (1 : Byte) <<< (c + glyphShift) else 0)) 0 =
        (x.setWidth 8) <<< 2 := by decide +kernel
  exact key _

end Sys2Proof.Machine
end

