-- ==== Sys2Proof/Laws/Chain.lean ====
section
/-! SUPPORT. The chain of devices under whole frames: shifting a frame in moves every frame on by one device, so after
a transaction of `N` frames each device holds the frame of its own slot (R172, R182). -/

namespace Sys2Proof.Machine

/-! ### One device -/

@[simp] theorem Device.shift_digits (b : Bool) (d : Device) : (Device.shift b d).digits = d.digits := rfl
@[simp] theorem Device.shift_decode (b : Bool) (d : Device) : (Device.shift b d).decode = d.decode := rfl
@[simp] theorem Device.shift_intensity (b : Bool) (d : Device) : (Device.shift b d).intensity = d.intensity := rfl
@[simp] theorem Device.shift_scanLimit (b : Bool) (d : Device) : (Device.shift b d).scanLimit = d.scanLimit := rfl
@[simp] theorem Device.shift_shutdown (b : Bool) (d : Device) : (Device.shift b d).shutdown = d.shutdown := rfl
@[simp] theorem Device.shift_test (b : Bool) (d : Device) : (Device.shift b d).test = d.test := rfl

/-- After a shift bit 0 is the bit shifted in and every other bit is the one below it. -/
theorem Device.shift_getLsbD (b : Bool) (d : Device) {i : Nat} (hi : i < 16) :
    (Device.shift b d).sr.getLsbD i = if i = 0 then b else d.sr.getLsbD (i - 1) := by
  cases i with
  | zero => simp [Device.shift]
  | succ i => simp [Device.shift, hi, BitVec.getLsbD_eq_getElem (show i < 16 by omega)]

/-- A device after shifting in `bs`, first bit first. -/
def Device.shiftAll (bs : List Bool) (d : Device) : Device := bs.foldl (fun d b => Device.shift b d) d

/-- The bits a device hands on while it shifts in `bs`. -/
def Device.shiftedOut : List Bool → Device → List Bool
  | [], _ => []
  | b :: bs, d => d.sr.getLsbD 15 :: Device.shiftedOut bs (Device.shift b d)

theorem Device.shiftAll_cons (b : Bool) (bs : List Bool) (d : Device) :
    Device.shiftAll (b :: bs) d = Device.shiftAll bs (Device.shift b d) := rfl

/-- Shifting changes the shift register only. -/
theorem Device.shiftAll_eq (bs : List Bool) (d : Device) :
    Device.shiftAll bs d = { d with sr := (Device.shiftAll bs d).sr } := by
  induction bs generalizing d with
  | nil => rfl
  | cons b bs ih => rw [Device.shiftAll_cons, ih]; rfl

theorem Device.shiftAll_getLsbD (bs : List Bool) (d : Device) {i : Nat} (hi : i < 16) :
    (Device.shiftAll bs d).sr.getLsbD i =
      if i < bs.length then bs.getD (bs.length - 1 - i) false else d.sr.getLsbD (i - bs.length) := by
  induction bs generalizing d with
  | nil => rfl
  | cons b bs ih =>
    rw [Device.shiftAll_cons, ih]
    rcases Nat.lt_trichotomy i bs.length with h | h | h
    · have h1 : (b :: bs).length - 1 - i = (bs.length - 1 - i) + 1 := by simp only [List.length_cons]; omega
      have h2 : i < (b :: bs).length := by simp only [List.length_cons]; omega
      rw [if_pos h, if_pos h2, h1, List.getD_cons_succ]
    · subst h
      have := Device.shift_getLsbD b d (i := 0) (by omega)
      rw [if_neg (by omega), Nat.sub_self, this]
      simp
    · have h2 : ¬ i < (b :: bs).length := by simp only [List.length_cons]; omega
      have h3 : ¬ i - bs.length = 0 := by omega
      rw [if_neg (by omega), if_neg h2, Device.shift_getLsbD b d (by omega), if_neg h3]
      simp [Nat.sub_sub]

theorem Device.shiftedOut_eq (bs : List Bool) (d : Device) (h : bs.length ≤ 16) :
    Device.shiftedOut bs d = (List.range bs.length).map fun j => d.sr.getLsbD (15 - j) := by
  induction bs generalizing d with
  | nil => rfl
  | cons b bs ih =>
    simp only [List.length_cons] at h
    rw [Device.shiftedOut, ih _ (by omega), List.length_cons, List.range_succ_eq_map, List.map_cons, List.map_map]
    congr 1
    refine List.map_congr_left fun j hj => ?_
    have hj := List.mem_range.1 hj
    rw [Device.shift_getLsbD b d (by omega), if_neg (by omega)]
    simp only [Function.comp_apply]
    congr 1

/-! ### A frame's sixteen bits -/

@[simp] theorem frameBits_length (f : FrameWord) : (frameBits f).length = 16 := by simp [frameBits]

theorem frameBits_eq (f : FrameWord) : frameBits f = (List.range 16).map fun j => f.getLsbD (15 - j) := rfl

theorem frameBits_getD (f : FrameWord) {j : Nat} (hj : j < 16) : (frameBits f).getD j false = f.getLsbD (15 - j) := by
  rw [frameBits_eq, List.getD_eq_getElem?_getD, List.getElem?_map, List.getElem?_range hj]
  rfl

/-- Sixteen bits fill the shift register. -/
theorem Device.shiftAll_frameBits (f : FrameWord) (d : Device) :
    Device.shiftAll (frameBits f) d = { d with sr := f } := by
  have : (Device.shiftAll (frameBits f) d).sr = f := by
    apply BitVec.eq_of_getLsbD_eq
    intro i hi
    rw [Device.shiftAll_getLsbD _ _ hi, frameBits_length, if_pos hi, frameBits_getD f (by omega)]
    congr 1
    omega
  rw [Device.shiftAll_eq, this]

/-- What it held goes on to the next device, bit 15 first. -/
theorem Device.shiftedOut_frameBits (f : FrameWord) (d : Device) :
    Device.shiftedOut (frameBits f) d = frameBits d.sr := by
  rw [Device.shiftedOut_eq _ _ (by simp), frameBits_length, frameBits_eq]

/-! ### The chain -/

/-- The first `n` devices after `bs` has been clocked in. -/
def chainShiftAll (n : Nat) (bs : List Bool) (ds : List Device) : List Device :=
  bs.foldl (fun ds b => chainShift n b ds) ds

@[simp] theorem chainShift_nil (n : Nat) (b : Bool) : chainShift n b [] = [] := by cases n <;> rfl

@[simp] theorem chainShift_zero (b : Bool) (ds : List Device) : chainShift 0 b ds = ds := by cases ds <;> rfl

@[simp] theorem chainShift_length (n : Nat) (b : Bool) (ds : List Device) : (chainShift n b ds).length = ds.length := by
  induction ds generalizing n b with
  | nil => simp
  | cons d ds ih => cases n <;> simp [chainShift, ih]

@[simp] theorem chainShiftAll_length (n : Nat) (bs : List Bool) (ds : List Device) :
    (chainShiftAll n bs ds).length = ds.length := by
  induction bs generalizing ds with
  | nil => rfl
  | cons b bs ih => exact (ih _).trans (chainShift_length n b ds)

@[simp] theorem chainShiftAll_nil (n : Nat) (bs : List Bool) : chainShiftAll n bs [] = [] := by
  induction bs with
  | nil => rfl
  | cons b bs ih => simp [chainShiftAll] at ih ⊢; exact ih

@[simp] theorem chainShiftAll_zero (bs : List Bool) (ds : List Device) : chainShiftAll 0 bs ds = ds := by
  induction bs generalizing ds with
  | nil => rfl
  | cons b bs ih => exact (congrArg (chainShiftAll 0 bs) (chainShift_zero b ds)).trans (ih ds)

theorem chainShiftAll_append (n : Nat) (bs cs : List Bool) (ds : List Device) :
    chainShiftAll n (bs ++ cs) ds = chainShiftAll n cs (chainShiftAll n bs ds) := by
  simp [chainShiftAll]

/-- The first device shifts in `bs`; the rest shift in what it hands on. -/
theorem chainShiftAll_cons (n : Nat) (bs : List Bool) (d : Device) (ds : List Device) :
    chainShiftAll (n + 1) bs (d :: ds) = Device.shiftAll bs d :: chainShiftAll n (Device.shiftedOut bs d) ds := by
  induction bs generalizing d ds with
  | nil => rfl
  | cons b bs ih => exact ih (Device.shift b d) (chainShift n (d.sr.getLsbD 15) ds)

/-- A whole frame shifted in: the first device holds it and its old frame is shifted on into the rest. -/
theorem chainShiftAll_frame (n : Nat) (f : FrameWord) (d : Device) (ds : List Device) :
    chainShiftAll (n + 1) (frameBits f) (d :: ds) = { d with sr := f } :: chainShiftAll n (frameBits d.sr) ds := by
  rw [chainShiftAll_cons, Device.shiftAll_frameBits, Device.shiftedOut_frameBits]

/-- The frame that a device of the first `n` holds after the frame `f` is shifted in: `f` at position 0, else the one
that was before it. -/
theorem chainShiftAll_frame_getElem? (n : Nat) (f : FrameWord) (ds : List Device) (p : Nat) :
    (chainShiftAll n (frameBits f) ds)[p]? =
      ds[p]?.map fun d => if p < n then { d with sr := if p = 0 then f else (ds[p - 1]?.map Device.sr).getD 0 } else d := by
  induction ds generalizing n f p with
  | nil => simp
  | cons d ds ih =>
    cases n with
    | zero => simp
    | succ n =>
      rw [chainShiftAll_frame]
      cases p with
      | zero => simp
      | succ p =>
        rw [List.getElem?_cons_succ, ih, List.getElem?_cons_succ]
        cases p with
        | zero => simp
        | succ p => simp

/-- After the frames `fs` are shifted in, first sent first, a device of the first `n` holds the frame sent `p`
frames before the last (R182), or, where fewer were sent, the frame of a device nearer to the block. -/
theorem chainShiftAll_frames_getElem? (n : Nat) (fs : List FrameWord) (ds : List Device) (p : Nat) :
    (chainShiftAll n (fs.flatMap frameBits) ds)[p]? =
      ds[p]?.map fun d => if p < n then
        { d with sr := if p < fs.length then fs.getD (fs.length - 1 - p) 0
                       else (ds[p - fs.length]?.map Device.sr).getD 0 } else d := by
  induction fs using List.reverseRecOn generalizing p with
  | nil =>
    rw [List.flatMap_nil, show chainShiftAll n [] ds = ds from rfl]
    rcases hd : ds[p]? with _ | d
    · rfl
    · simp
  | append_singleton fs f ih =>
    rw [List.flatMap_append, chainShiftAll_append]
    simp only [List.flatMap_cons, List.flatMap_nil, List.append_nil]
    rw [chainShiftAll_frame_getElem?, ih p]
    rcases hd : ds[p]? with _ | d
    · rfl
    · by_cases hn : p < n
      · cases p with
        | zero => simp [hn]
        | succ p =>
          have hlen : p + 1 < ds.length := (List.getElem?_eq_some_iff.1 hd).1
          have hp : ds[p]? = some ds[p] := List.getElem?_eq_getElem (by omega)
          simp only [Nat.add_sub_cancel, ih p, hp, List.length_append, List.length_cons, List.length_nil, Nat.zero_add,
            Option.map_some, hn, if_true, show p < n by omega, Nat.add_one_ne_zero, if_false, Nat.add_lt_add_iff_right,
            Option.getD_some, Option.some.injEq, Device.mk.injEq, and_true]
          by_cases hf : p < fs.length
          · simp only [hf, if_true]
            rw [List.getD_append _ _ _ _ (by omega)]
            congr 1
            omega
          · simp only [hf, if_false, Nat.add_sub_add_right]
      · simp [hn]

end Sys2Proof.Machine
end

