-- ==== Sys2Proof/Laws/Wire.lean ====
section
/-! SUPPORT. What a transaction does: the trace, the ports, and the whole chain (R102, R173, R182). -/

namespace Sys2Proof.Machine

/-! ### The trace and the ports -/

@[simp] theorem State.emit_trace (s : State) (e : WireEvent) : (s.emit e).trace = s.trace ++ [e] := by cases e <;> rfl

theorem State.emitAll_nil (s : State) : s.emitAll [] = s := rfl

theorem State.emitAll_cons (s : State) (e : WireEvent) (es : List WireEvent) :
    s.emitAll (e :: es) = (s.emit e).emitAll es := rfl

theorem State.emitAll_append (s : State) (es fs : List WireEvent) :
    s.emitAll (es ++ fs) = (s.emitAll es).emitAll fs := by
  simp [State.emitAll]

@[simp] theorem State.emitAll_trace (s : State) (es : List WireEvent) : (s.emitAll es).trace = s.trace ++ es := by
  induction es generalizing s with
  | nil => simp [State.emitAll_nil]
  | cons e es ih => simp [State.emitAll_cons, ih]

@[simp] theorem State.transaction_trace (s : State) (fs : List Frame) :
    (s.transaction fs).trace = s.trace ++ transactionEvents fs :=
  s.emitAll_trace _

/-- Bits clocked out: the chain shifts them in, and nothing but TRACE, DIN, CLK and the chain changes. -/
theorem State.emitAll_bits (s : State) (bs : List Bool) :
    s.emitAll (bs.map .bit) =
      { s with
        trace := s.trace ++ bs.map .bit
        din := bs.getLast?.getD s.din
        clk := if bs = [] then s.clk else false
        chain := chainShiftAll s.count bs s.chain } := by
  induction bs generalizing s with
  | nil => simp [State.emitAll_nil, chainShiftAll]
  | cons b bs ih =>
    rw [List.map_cons, State.emitAll_cons, ih]
    ext1 <;> simp [State.emit, State.count, chainShiftAll, List.getLast?_cons]

theorem transactionEvents_eq (fs : List Frame) :
    transactionEvents fs =
      .csLow :: ((fs.map Frame.word).flatMap frameBits).map .bit ++ [.csHigh] := by
  have : fs.flatMap Frame.events = ((fs.map Frame.word).flatMap frameBits).map WireEvent.bit := by
    rw [List.map_flatMap, List.flatMap_map]
    rfl
  simp [transactionEvents, this]

/-- A whole transaction as one state: bits shifted in, then every device latches. -/
theorem State.transaction_eq (s : State) (fs : List Frame) :
    s.transaction fs =
      (((s.emit .csLow).emitAll (((fs.map Frame.word).flatMap frameBits).map .bit))).emit .csHigh := by
  rw [State.transaction, transactionEvents_eq, State.emitAll_append, State.emitAll_cons]
  rfl

@[simp] theorem State.transaction_cs (s : State) (fs : List Frame) : (s.transaction fs).cs = true := by
  rw [State.transaction_eq]
  rfl

theorem frameBits_flatMap_eq_nil (fs : List Frame) : (fs.map Frame.word).flatMap frameBits = [] ↔ fs = [] := by
  cases fs with
  | nil => simp
  | cons f fs => simp [frameBits]

@[simp] theorem State.transaction_clk (s : State) (fs : List Frame) :
    (s.transaction fs).clk = if fs = [] then s.clk else false := by
  rw [State.transaction_eq, State.emitAll_bits]
  simp only [State.emit, State.releaseChip_clk, State.record_clk, State.selectChip_clk, frameBits_flatMap_eq_nil]

theorem State.transaction_chain_eq (s : State) (fs : List Frame) :
    (s.transaction fs).chain =
      chainLatch s.count s.draws (chainShiftAll s.count ((fs.map Frame.word).flatMap frameBits) s.chain) := by
  rw [State.transaction_eq, State.emitAll_bits]
  rfl

theorem State.transaction_draws_eq (s : State) (fs : List Frame) :
    (s.transaction fs).draws =
      if chainUnspecified s.count (chainShiftAll s.count ((fs.map Frame.word).flatMap frameBits) s.chain)
      then s.draws + 1 else s.draws := by
  rw [State.transaction_eq, State.emitAll_bits]
  rfl

/-! ### The chain -/

theorem chainLatch_getElem? (n draw : Nat) (ds : List Device) (p : Nat) :
    (chainLatch n draw ds)[p]? =
      ds[p]?.map fun d => if p < n then Device.latch (Config.freeDevice draw p) d else d := by
  simp [chainLatch, List.getElem?_mapIdx]

/-- What device `p` of a chain of `fs.length` devices has become after the transaction `fs`: its shift register
holds the frame of its slot, whose rule it has applied (R173, R182). -/
def Device.received (fs : List Frame) (draw p : Nat) (d : Device) : Device :=
  let f := fs.getD (fs.length - 1 - p) Frame.noop
  Device.apply f.addr f.data (Config.freeDevice draw p) { d with sr := f.word }

/-- Position mapping (R182): a transaction of `N` frames gives each of the `N` devices the frame of its own slot. -/
theorem State.transaction_chain (s : State) (fs : List Frame) (h : fs.length = s.count) (p : Nat) :
    (s.transaction fs).chain[p]? =
      s.chain[p]?.map fun d => if p < s.count then Device.received fs s.draws p d else d := by
  rw [State.transaction_chain_eq, chainLatch_getElem?, chainShiftAll_frames_getElem?, Option.map_map]
  congr 1
  funext d
  by_cases hp : p < s.count
  · have hlen : fs.length - 1 - p < fs.length := by omega
    have hf : p < fs.length := by omega
    simp [hp, hf, Device.latch, Device.received, hlen]
  · simp [hp]

/-- A transaction of `N` frames to specified addresses draws no free value. -/
theorem State.transaction_draws (s : State) (fs : List Frame) (h : fs.length = s.count)
    (ha : ∀ f ∈ fs, addrUnspecified f.addr = false) : (s.transaction fs).draws = s.draws := by
  rw [State.transaction_draws_eq, if_neg]
  simp only [chainUnspecified, List.any_eq_true, not_exists, not_and]
  intro d hd
  obtain ⟨p, hp⟩ := List.mem_iff_getElem?.1 hd
  rw [List.getElem?_take] at hp
  split at hp
  · rename_i hpn
    rw [chainShiftAll_frames_getElem?] at hp
    obtain ⟨d0, hd0, rfl⟩ := Option.map_eq_some_iff.1 hp
    have hlen : fs.length - 1 - p < fs.length := by omega
    have hf : p < fs.length := by omega
    have := ha _ (List.getElem_mem hlen)
    simpa [hpn, hf, hlen] using this
  · exact absurd hp (by simp)

@[simp] theorem State.transaction_chain_length (s : State) (fs : List Frame) :
    (s.transaction fs).chain.length = s.chain.length := by
  rw [State.transaction_chain_eq, chainLatch, List.length_mapIdx, chainShiftAll_length]

end Sys2Proof.Machine
end

