-- ==== Sys2Proof/Laws/Bus.lean ====
section
/-! SUPPORT. The transactions the commands send: a frame for each device, row by row, and the configuration
sequence. -/

namespace Sys2Proof.Machine

/-! ### A frame for each device -/

@[simp] theorem framesFor_length (n : Nat) (f : Nat → Frame) : (framesFor n f).length = n := by
  simp [framesFor, chainOrder]

theorem framesFor_eq (n : Nat) (f : Nat → Frame) : framesFor n f = (List.range n).map fun j => f (n - 1 - j) := by
  simp [framesFor, chainOrder, devAt, List.map_map, Function.comp_def]

theorem framesFor_const (n : Nat) (f : Frame) : (framesFor n fun _ => f) = List.replicate n f := by
  rw [framesFor_eq, List.map_const', List.length_range]

/-- Device `p`'s slot carries its own frame (R106). -/
theorem framesFor_getD {n p : Nat} (f : Nat → Frame) (hp : p < n) : (framesFor n f).getD (n - 1 - p) Frame.noop = f p := by
  have h1 : n - 1 - p < n := by omega
  have h2 : n - 1 - (n - 1 - p) = p := by omega
  simp [framesFor_eq, h1, h2]

theorem mem_framesFor {n : Nat} {f : Nat → Frame} {x : Frame} (h : x ∈ framesFor n f) : ∃ d < n, x = f d := by
  rw [framesFor_eq] at h
  obtain ⟨j, hj, rfl⟩ := List.mem_map.1 h
  exact ⟨n - 1 - j, by have := List.mem_range.1 hj; omega, rfl⟩

/-- With a specified address the free value plays no part. -/
theorem Device.apply_free {addr : Addr} (data : Byte) (free free' : Device) (d : Device)
    (h : addrUnspecified addr = false) : Device.apply addr data free d = Device.apply addr data free' d := by
  obtain ⟨⟨v, hv⟩⟩ := addr
  have hv' : v < 16 := hv
  interval_cases v <;> first | rfl | exact absurd h (by simp [addrUnspecified])

theorem addrUnspecified_false {a : Addr} : addrUnspecified a = false ↔ a ≠ 0xD ∧ a ≠ 0xE := by
  simp [addrUnspecified]

/-! ### One transaction -/

theorem State.OnlyWires.refl (s : State) : s.OnlyWires s := rfl

theorem State.OnlyWires.trans {s t u : State} (h : s.OnlyWires t) (h' : t.OnlyWires u) : s.OnlyWires u := by
  unfold State.OnlyWires at *
  rw [h'] 
  rw [h]

theorem State.transaction_onlyWires (s : State) (fs : List Frame) (h : fs.length = s.count)
    (ha : ∀ f ∈ fs, f.addr ≠ 0xD ∧ f.addr ≠ 0xE) : s.OnlyWires (s.transaction fs) := by
  have hd := State.transaction_draws s fs h fun f hf => addrUnspecified_false.2 (ha f hf)
  unfold State.OnlyWires
  ext1 <;> simp [hd]

theorem State.transaction_sends (s : State) (fs : List Frame) (h : fs.length = s.count) :
    s.Sends (s.transaction fs) [fs] := by
  refine ⟨by simp, by simp, fun hc => ?_⟩
  have : fs ≠ [] := by
    rintro rfl
    simp [State.transaction_count] at hc h
    omega
  simp [this]

theorem State.EachDevice.trans {s t u : State} {n : Nat} {f g : Nat → Device → Device} (h : s.EachDevice t n f)
    (h' : t.EachDevice u n g) : s.EachDevice u n fun p d => g p (f p d) := by
  intro p
  rw [h' p, h p, Option.map_map]
  congr 1
  funext d
  by_cases hp : p < n <;> simp [hp]

theorem State.EachDevice.congr {s t : State} {n : Nat} {f g : Nat → Device → Device} (h : s.EachDevice t n f)
    (hfg : ∀ p < n, ∀ d, f p d = g p d) : s.EachDevice t n g := by
  intro p
  rw [h p]
  congr 1
  funext d
  by_cases hp : p < n
  · simp [hp, hfg p hp d]
  · simp [hp]

/-- A transaction to specified addresses, device by device (R182). -/
theorem State.transaction_eachDevice (s : State) (fs : List Frame) (h : fs.length = s.count)
    (ha : ∀ f ∈ fs, f.addr ≠ 0xD ∧ f.addr ≠ 0xE) :
    s.EachDevice (s.transaction fs) s.count fun p d =>
      let f := fs.getD (s.count - 1 - p) Frame.noop
      Device.apply f.addr f.data d { d with sr := f.word } := by
  refine State.EachDevice.congr (f := fun p d => Device.received fs s.draws p d) (State.transaction_chain s fs h) ?_
  intro p hp d
  have hlen : s.count - 1 - p < fs.length := by omega
  have hmem : fs.getD (s.count - 1 - p) Frame.noop ∈ fs := by
    rw [List.getD_eq_getElem?_getD, List.getElem?_eq_getElem hlen]
    exact List.getElem_mem hlen
  simp only [Device.received, h]
  exact Device.apply_free _ _ _ _ (addrUnspecified_false.2 (ha _ hmem))

theorem State.framesFor_eachDevice (s : State) (f : Nat → Frame) (ha : ∀ d, (f d).addr ≠ 0xD ∧ (f d).addr ≠ 0xE) :
    s.EachDevice (s.transaction (framesFor s.count f)) s.count fun p d =>
      Device.apply (f p).addr (f p).data d { d with sr := (f p).word } := by
  refine State.EachDevice.congr (State.transaction_eachDevice s _ (by simp) fun x hx => ?_) fun p hp d => ?_
  · obtain ⟨d, -, rfl⟩ := mem_framesFor hx
    exact ha d
  · simp only [framesFor_getD f hp]

theorem State.framesFor_onlyWires (s : State) (f : Nat → Frame) (ha : ∀ d, (f d).addr ≠ 0xD ∧ (f d).addr ≠ 0xE) :
    s.OnlyWires (s.transaction (framesFor s.count f)) :=
  State.transaction_onlyWires s _ (by simp) fun x hx => by
    obtain ⟨d, -, rfl⟩ := mem_framesFor hx
    exact ha d

/-! ### The rows of a refresh -/

theorem rowAddr_specified {r : Nat} (hr : r < 8) : rowAddr r ≠ 0xD ∧ rowAddr r ≠ 0xE := by
  interval_cases r <;> decide

@[simp] theorem State.rowTransaction_count (s : State) (r : Nat) : (s.rowTransaction r).count = s.count :=
  State.transaction_count s _

@[simp] theorem State.rowTransaction_cell (s : State) (r d r' : Nat) : (s.rowTransaction r).cell d r' = s.cell d r' :=
  State.transaction_cell s _ d r'

/-- The first `k` row transactions of a refresh. -/
def State.refreshRows (s : State) (k : Nat) : State := (List.range k).foldl State.rowTransaction s

@[simp] theorem State.refreshRows_zero (s : State) : s.refreshRows 0 = s := rfl

theorem State.refreshRows_succ (s : State) (k : Nat) : s.refreshRows (k + 1) = (s.refreshRows k).rowTransaction k := by
  simp [State.refreshRows, List.range_succ]

theorem State.refreshAll_eq (s : State) : s.refreshAll = s.refreshRows 8 := rfl

@[simp] theorem State.refreshRows_count (s : State) (k : Nat) : (s.refreshRows k).count = s.count := by
  induction k with
  | zero => rfl
  | succ k ih => rw [State.refreshRows_succ, State.rowTransaction_count, ih]

@[simp] theorem State.refreshRows_cell (s : State) (k d r : Nat) : (s.refreshRows k).cell d r = s.cell d r := by
  induction k with
  | zero => rfl
  | succ k ih => rw [State.refreshRows_succ, State.rowTransaction_cell, ih]

theorem State.refreshRows_onlyWires (s : State) {k : Nat} (hk : k ≤ 8) : s.OnlyWires (s.refreshRows k) := by
  induction k with
  | zero => exact State.OnlyWires.refl s
  | succ k ih =>
    rw [State.refreshRows_succ]
    exact (ih (by omega)).trans (State.framesFor_onlyWires _ _ fun _ => rowAddr_specified (by omega))

theorem State.refreshRows_trace (s : State) (k : Nat) :
    (s.refreshRows k).trace = s.trace ++ ((List.range k).map (rowFrames s)).flatMap transactionEvents := by
  induction k with
  | zero => simp
  | succ k ih =>
    have hrow : rowFrames (s.refreshRows k) k = rowFrames s k := by simp [rowFrames]
    rw [State.refreshRows_succ, State.rowTransaction, State.transaction_trace, ih, hrow]
    simp [List.range_succ, List.flatMap_append]

theorem State.refreshRows_sends (s : State) {k : Nat} (hk : 0 < k) :
    s.Sends (s.refreshRows k) ((List.range k).map (rowFrames s)) := by
  obtain ⟨k, rfl⟩ : ∃ m, k = m + 1 := ⟨k - 1, by omega⟩
  refine ⟨State.refreshRows_trace s _, ?_, fun hc => ?_⟩
  · rw [State.refreshRows_succ]
    exact State.transaction_cs _ _
  · have hc' : 0 < (s.refreshRows k).count := by simpa using hc
    rw [State.refreshRows_succ]
    exact (State.transaction_sends _ _ (by simp [rowFrames])).2.2 (by simpa using hc')

/-- The address of row `r` names digit register `r` (R74, R175). -/
theorem Device.apply_row {r : Nat} (hr : r < 8) (data : Byte) (free d : Device) :
    Device.apply (rowAddr r) data free d = Device.latchDigit ⟨r, hr⟩ data d := by
  interval_cases r <;> rfl

/-- Rows `0..k-1` of the chain after the first `k` row transactions are the buffer's; the other registers are kept
(R233). -/
theorem State.refreshRows_eachDevice (s : State) {k : Nat} (hk : k ≤ 8) :
    s.EachDevice (s.refreshRows k) s.count fun p d =>
      { d with
        sr := if k = 0 then d.sr else (0#4 ++ BitVec.ofNat 4 k) ++ s.cell p (k - 1)
        digits := Vector.ofFn fun r : Fin 8 => if r.val < k then s.cell p r else d.digits[r] } := by
  induction k with
  | zero =>
    intro p
    rcases h : s.chain[p]? with _ | d <;> simp [h]
  | succ k ih =>
    have hstep := State.framesFor_eachDevice (s.refreshRows k)
      (fun d => { addr := rowAddr k, data := (s.refreshRows k).cell d k }) fun _ => rowAddr_specified (by omega)
    rw [State.refreshRows_succ]
    simp only [State.refreshRows_count] at hstep
    refine State.EachDevice.congr ((ih (by omega)).trans
      (by simpa only [State.rowTransaction, rowFrames, State.refreshRows_count] using hstep)) ?_
    intro p _ d
    simp only [Device.apply_row (show k < 8 by omega)]
    simp only [Device.latchDigit, Frame.word, rowAddr, State.refreshRows_cell, Nat.add_sub_cancel, Nat.add_one_ne_zero,
      if_false]
    congr 1
    ext i hi
    simp only [Vector.getElem_set, Vector.getElem_ofFn]
    by_cases hik : i = k
    · simp [hik]
    · have h1 : ¬ k = i := fun e => hik e.symm
      by_cases hlt : i < k
      · simp [h1, hlt, show i < k + 1 by omega]
      · simp [h1, hlt, show ¬ i < k + 1 by omega]

end Sys2Proof.Machine
end

