-- ==== Sys2Proof/Laws/Command.lean ====
section
/-! SUPPORT. What the prologue, the device guard, a command and a step can do, each said once. -/

namespace Sys2Proof.Machine

/-! ### The prologue and the guard -/

theorem State.runCommand_faulted (i : Instr) (op : BitVec 4) (body : State → Result) {s : State} (h : s.fault ≠ none) :
    s.runCommand i op body = .fault .quiescent := by
  rw [State.runCommand, if_pos (Option.isSome_iff_ne_none.2 h)]

theorem State.runCommand_illegal {i : Instr} (op : BitVec 4) (body : State → Result) {s : State} (h : s.fault = none)
    (hi : i.wf = false) : s.runCommand i op body = .next { s with fault := some (.illegalCommand (commandWord i)) } := by
  simp [State.runCommand, h, hi, State.raise]

theorem State.runCommand_uninit {i : Instr} {op : BitVec 4} (body : State → Result) {s : State} (h : s.fault = none)
    (hi : i.wf = true) (hop : op ≠ 0x0) (hs : s.init = false) :
    s.runCommand i op body = .next { s with fault := some (.notInitialized op) } := by
  have hop' : (op != 0x0) = true := by simpa using hop
  simp only [State.runCommand, h, hi, hs, hop', State.raise]
  rfl

theorem State.runCommand_ready {i : Instr} (op : BitVec 4) (body : State → Result) {s : State} (h : s.Ready)
    (hi : i.wf = true) : s.runCommand i op body = body s := by
  simp [State.runCommand, h.1, h.2, hi]

theorem State.runCommand_begin {i : Instr} (body : State → Result) {s : State} (h : s.fault = none) (hi : i.wf = true) :
    s.runCommand i 0x0 body = body s := by
  simp [State.runCommand, h, hi]

/-- The faults of the prologue: IllegalCommand, then NotInitialized (R109). -/
def PrologueRaises (i : Instr) (op : BitVec 4) (s : State) (r : FaultRecord) : Prop :=
  (i.wf = false ∧ r = .illegalCommand (commandWord i)) ∨
    (i.wf = true ∧ op ≠ 0x0 ∧ s.init = false ∧ r = .notInitialized op)

/-- A command that answers a next state raised, or ran its own rule with INIT set (or is BEGIN). -/
theorem State.runCommand_next {i : Instr} {op : BitVec 4} {body : State → Result} {s t : State}
    (h : s.runCommand i op body = .next t) :
    s.fault = none ∧ ((∃ r, PrologueRaises i op s r ∧ t = { s with fault := some r }) ∨
      (i.wf = true ∧ (op = 0x0 ∨ s.init = true) ∧ body s = .next t)) := by
  unfold State.runCommand at h
  split at h
  · cases h
  · rename_i hf
    refine ⟨by simpa using hf, ?_⟩
    split at h
    · cases h
      rename_i hw
      exact .inl ⟨_, .inl ⟨by simpa using hw, rfl⟩, rfl⟩
    · rename_i hw
      have hw' : i.wf = true := by simpa using hw
      by_cases hop : op = 0x0
      · subst hop
        exact .inr ⟨hw', .inl rfl, h⟩
      · have hop' : (op != 0x0) = true := by simpa using hop
        rw [hop', Bool.true_and] at h
        split at h
        · cases h
          rename_i hi
          exact .inl ⟨_, .inr ⟨hw', hop, by simpa using hi, rfl⟩, rfl⟩
        · rename_i hi
          exact .inr ⟨hw', .inr (by simpa using hi), h⟩

theorem State.guardDevice_inside (body : State → Result) {s : State} {dev : Byte} (h : dev.toNat < s.count) :
    s.guardDevice dev body = body s := by
  rw [State.guardDevice, if_pos h]

theorem State.guardDevice_outside (body : State → Result) {s : State} {dev : Byte} (h : s.count ≤ dev.toNat) :
    s.guardDevice dev body = .next s := by
  rw [State.guardDevice, if_neg (by omega)]
  rfl

theorem State.guardDevice_next {body : State → Result} {s t : State} {dev : Byte}
    (h : s.guardDevice dev body = .next t) : t = s ∨ (dev.toNat < s.count ∧ body s = .next t) := by
  unfold State.guardDevice at h
  split at h
  · exact .inr ⟨‹_›, h⟩
  · cases h
    exact .inl rfl

/-! ### Every command runs the prologue -/

/-- A command is the prologue with its own `op`, then a body (R109). -/
theorem exec_prologue {i : Instr} {f : CmdFields} (hf : commandFields i = some f) :
    ∃ body, ∀ s, exec i s = s.runCommand i f.op body := by
  cases i with
  | begin n => cases hf; exact ⟨_, execBegin.eq_1 n⟩
  | busBroadcast reg data => cases hf; exact ⟨_, execBusBroadcast.eq_1 reg data⟩
  | busTargeted dev reg data => cases hf; exact ⟨_, execBusTargeted.eq_1 dev reg data⟩
  | renderDigit dev arg => cases hf; exact ⟨_, execRenderDigit.eq_1 dev arg⟩
  | renderLetter dev ch => cases hf; exact ⟨_, execRenderLetter.eq_1 dev ch⟩
  | renderText text => cases hf; exact ⟨_, execRenderText.eq_1 text⟩
  | clearDevice dev => cases hf; exact ⟨_, execClearDevice.eq_1 dev⟩
  | setColon dev on => cases hf; exact ⟨_, execSetColon.eq_1 dev on⟩
  | setDecimal dev on => cases hf; exact ⟨_, execSetDecimal.eq_1 dev on⟩
  | setDegree dev on => cases hf; exact ⟨_, execSetDegree.eq_1 dev on⟩
  | clearAllIndicators => cases hf; exact ⟨_, execClearAllIndicators.eq_1⟩
  | refresh => cases hf; exact ⟨_, execRefresh.eq_1⟩
  | clearDisplay => cases hf; exact ⟨_, execClearDisplay.eq_1⟩
  | noop | digit0 | digit1 | digit2 | digit3 | digit4 | digit5 | digit6 | digit7 | decodeMode | intensity | scanLimit
  | shutdown | displayTest => cases hf

theorem exec_faulted {i : Instr} {s : State} (hc : (commandFields i).isSome = true) (h : s.fault ≠ none) :
    exec i s = .fault .quiescent := by
  obtain ⟨f, hf⟩ := Option.isSome_iff_exists.1 hc
  obtain ⟨body, hb⟩ := exec_prologue hf
  rw [hb, State.runCommand_faulted _ _ _ h]

theorem exec_illegal {i : Instr} {s : State} (hc : (commandFields i).isSome = true) (h : s.fault = none)
    (hi : i.wf = false) : exec i s = .next { s with fault := some (.illegalCommand (commandWord i)) } := by
  obtain ⟨f, hf⟩ := Option.isSome_iff_exists.1 hc
  obtain ⟨body, hb⟩ := exec_prologue hf
  rw [hb, State.runCommand_illegal _ _ h hi]

theorem exec_uninit {i : Instr} {f : CmdFields} {s : State} (hf : commandFields i = some f) (h : s.fault = none)
    (hi : i.wf = true) (hop : f.op ≠ 0x0) (hs : s.init = false) :
    exec i s = .next { s with fault := some (.notInitialized f.op) } := by
  obtain ⟨body, hb⟩ := exec_prologue hf
  rw [hb, State.runCommand_uninit _ h hi hop hs]

/-! ### Each command where it runs its own rule -/

theorem wf_busBroadcast {reg : Addr} (data : Byte) (h1 : reg ≠ 0xD) (h2 : reg ≠ 0xE) :
    (Instr.busBroadcast reg data).wf = true := by
  simp only [Instr.wf, reservedAddr, beq_eq_false_iff_ne.2 h1, beq_eq_false_iff_ne.2 h2]
  rfl

theorem wf_busTargeted (dev : Byte) {reg : Addr} (data : Byte) (h1 : reg ≠ 0xD) (h2 : reg ≠ 0xE) :
    (Instr.busTargeted dev reg data).wf = true := by
  simp only [Instr.wf, reservedAddr, beq_eq_false_iff_ne.2 h1, beq_eq_false_iff_ne.2 h2]
  rfl

theorem exec_begin {s : State} {n : Byte} (h : s.fault = none) (hlo : 1 ≤ n.toNat) (hhi : n.toNat ≤ s.cfg.nmax) :
    exec (.begin n) s = .next (((s.pinSetup.setCount n).clearBuffer n.toNat).configure).markInit := by
  rw [show exec (.begin n) s = execBegin n s from rfl, execBegin, State.runCommand_begin _ h rfl, if_neg (by omega),
    if_neg (by omega)]

theorem exec_begin_bad {s : State} {n : Byte} (h : s.fault = none) (hn : n.toNat < 1 ∨ s.cfg.nmax < n.toNat) :
    exec (.begin n) s = .next { s with fault := some (.badDeviceCount n) } := by
  rw [show exec (.begin n) s = execBegin n s from rfl, execBegin, State.runCommand_begin _ h rfl]
  rcases hn with hn | hn
  · rw [if_pos hn]
    rfl
  · by_cases h1 : n.toNat < 1
    · rw [if_pos h1]
      rfl
    · rw [if_neg h1, if_pos hn]
      rfl

theorem exec_busBroadcast {s : State} {reg : Addr} (data : Byte) (h : s.Ready) (h1 : reg ≠ 0xD) (h2 : reg ≠ 0xE) :
    exec (.busBroadcast reg data) s = .next (s.broadcast { addr := reg, data := data }) := by
  rw [show exec (.busBroadcast reg data) s = execBusBroadcast reg data s from rfl, execBusBroadcast,
    State.runCommand_ready _ _ h (wf_busBroadcast data h1 h2)]

theorem exec_busTargeted {s : State} {dev : Byte} {reg : Addr} (data : Byte) (h : s.Ready) (h1 : reg ≠ 0xD)
    (h2 : reg ≠ 0xE) (hd : dev.toNat < s.count) :
    exec (.busTargeted dev reg data) s =
      .next (s.transaction (targetedFrames s.count dev.toNat { addr := reg, data := data })) := by
  rw [show exec (.busTargeted dev reg data) s = execBusTargeted dev reg data s from rfl, execBusTargeted,
    State.runCommand_ready _ _ h (wf_busTargeted dev data h1 h2), if_neg (by omega)]

theorem exec_busTargeted_bad {s : State} {dev : Byte} {reg : Addr} (data : Byte) (h : s.Ready) (h1 : reg ≠ 0xD)
    (h2 : reg ≠ 0xE) (hd : s.count ≤ dev.toNat) :
    exec (.busTargeted dev reg data) s = .next { s with fault := some (.badTarget dev) } := by
  rw [show exec (.busTargeted dev reg data) s = execBusTargeted dev reg data s from rfl, execBusTargeted,
    State.runCommand_ready _ _ h (wf_busTargeted dev data h1 h2), if_pos hd]
  rfl

theorem exec_renderDigit {s : State} {dev : Byte} {arg : BitVec 16} (h : s.Ready) (hd : dev.toNat < s.count)
    (hn : isDigitValue (signedNumber arg) = true) :
    exec (.renderDigit dev arg) s = .next (s.renderGlyph dev.toNat (digitGlyph s.cfg (signedNumber arg).toNat)) := by
  rw [show exec (.renderDigit dev arg) s = execRenderDigit dev arg s from rfl, execRenderDigit,
    State.runCommand_ready _ _ h rfl, State.guardDevice_inside _ hd, if_pos hn]

theorem exec_renderDigit_ignored {s : State} {dev : Byte} {arg : BitVec 16} (h : s.Ready)
    (hn : s.count ≤ dev.toNat ∨ isDigitValue (signedNumber arg) = false) : exec (.renderDigit dev arg) s = .next s := by
  rw [show exec (.renderDigit dev arg) s = execRenderDigit dev arg s from rfl, execRenderDigit,
    State.runCommand_ready _ _ h rfl]
  rcases Nat.lt_or_ge dev.toNat s.count with hd | hd
  · rw [State.guardDevice_inside _ hd, hn.resolve_left (by omega)]
    rfl
  · exact State.guardDevice_outside _ hd

theorem exec_renderLetter {s : State} {dev ch : Byte} (h : s.Ready) (hd : dev.toNat < s.count)
    (hl : isUpper (foldLetter ch) = true) :
    exec (.renderLetter dev ch) s = .next (s.renderGlyph dev.toNat (letterGlyph s.cfg (foldLetter ch - 0x41).toNat)) := by
  rw [show exec (.renderLetter dev ch) s = execRenderLetter dev ch s from rfl, execRenderLetter,
    State.runCommand_ready _ _ h rfl, State.guardDevice_inside _ hd, if_pos hl]

theorem exec_renderLetter_ignored {s : State} {dev ch : Byte} (h : s.Ready)
    (hn : s.count ≤ dev.toNat ∨ isUpper (foldLetter ch) = false) : exec (.renderLetter dev ch) s = .next s := by
  rw [show exec (.renderLetter dev ch) s = execRenderLetter dev ch s from rfl, execRenderLetter,
    State.runCommand_ready _ _ h rfl]
  rcases Nat.lt_or_ge dev.toNat s.count with hd | hd
  · rw [State.guardDevice_inside _ hd, hn.resolve_left (by omega)]
    rfl
  · exact State.guardDevice_outside _ hd

theorem exec_renderText {s : State} {text : List Byte} (h : s.Ready) (hl : text.length < 65536) :
    exec (.renderText text) s =
      .next (s.fillDevices s.count fun d => charRows s.cfg (effectiveText text)[d]?) := by
  rw [show exec (.renderText text) s = execRenderText text s from rfl, execRenderText,
    State.runCommand_ready _ _ h (by simpa [Instr.wf] using hl)]

theorem exec_clearDevice {s : State} {dev : Byte} (h : s.Ready) (hd : dev.toNat < s.count) :
    exec (.clearDevice dev) s = .next (s.clearCells dev.toNat) := by
  rw [show exec (.clearDevice dev) s = execClearDevice dev s from rfl, execClearDevice,
    State.runCommand_ready _ _ h rfl, State.guardDevice_inside _ hd]

theorem exec_setColon {s : State} {dev : Byte} (on : Bool) (h : s.Ready) (hd : dev.toNat < s.count) :
    exec (.setColon dev on) s =
      .next (s.setCell dev.toNat indicatorRow (colonCell on (s.cell dev.toNat indicatorRow))) := by
  rw [show exec (.setColon dev on) s = execSetColon dev on s from rfl, execSetColon,
    State.runCommand_ready _ _ h rfl, State.guardDevice_inside _ hd]

theorem exec_setDecimal {s : State} {dev : Byte} (on : Bool) (h : s.Ready) (hd : dev.toNat < s.count) :
    exec (.setDecimal dev on) s =
      .next (s.setCell dev.toNat indicatorRow (decimalCell on (s.cell dev.toNat indicatorRow))) := by
  rw [show exec (.setDecimal dev on) s = execSetDecimal dev on s from rfl, execSetDecimal,
    State.runCommand_ready _ _ h rfl, State.guardDevice_inside _ hd]

theorem exec_setDegree {s : State} {dev : Byte} (on : Bool) (h : s.Ready) (hd : dev.toNat < s.count) :
    exec (.setDegree dev on) s = .next (s.setRows dev.toNat (degreeRows s.cfg on)) := by
  rw [show exec (.setDegree dev on) s = execSetDegree dev on s from rfl, execSetDegree,
    State.runCommand_ready _ _ h rfl, State.guardDevice_inside _ hd]

/-- The device guard turns away the four commands that have no guard of their own besides it (R122). -/
theorem exec_outside {s : State} {dev : Byte} (on : Bool) (h : s.Ready) (hd : s.count ≤ dev.toNat) :
    exec (.clearDevice dev) s = .next s ∧ exec (.setColon dev on) s = .next s ∧
      exec (.setDecimal dev on) s = .next s ∧ exec (.setDegree dev on) s = .next s := by
  refine ⟨?_, ?_, ?_, ?_⟩ <;>
  · refine (State.runCommand_ready _ _ h rfl).trans ?_
    exact State.guardDevice_outside _ hd

theorem exec_clearAllIndicators {s : State} (h : s.Ready) :
    exec .clearAllIndicators s = .next (s.clearIndicators s.count) := by
  rw [show exec .clearAllIndicators s = execClearAllIndicators s from rfl, execClearAllIndicators,
    State.runCommand_ready _ _ h rfl]

theorem exec_refresh {s : State} (h : s.Ready) : exec .refresh s = .next s.refreshAll := by
  rw [show exec .refresh s = execRefresh s from rfl, execRefresh, State.runCommand_ready _ _ h rfl]

theorem exec_clearDisplay {s : State} (h : s.Ready) :
    exec .clearDisplay s = .next (s.clearBuffer s.count).refreshAll := by
  rw [show exec .clearDisplay s = execClearDisplay s from rfl, execClearDisplay, State.runCommand_ready _ _ h rfl]

/-! ### What an instruction can do -/

/-- The faults of R202 that `i` raises from a state without a fault, each with its condition. -/
inductive Raises (s : State) : Instr → FaultRecord → Prop where
  | prologue (i : Instr) (f : CmdFields) (r : FaultRecord) (hf : commandFields i = some f)
      (hr : PrologueRaises i f.op s r) : Raises s i r
  | count (n : Byte) (hn : n.toNat < 1 ∨ s.cfg.nmax < n.toNat) : Raises s (.begin n) (.badDeviceCount n)
  | target (dev : Byte) (reg : Addr) (data : Byte) (h : s.Ready) (hd : s.count ≤ dev.toNat) :
      Raises s (.busTargeted dev reg data) (.badTarget dev)

theorem Raises.command {s : State} {i : Instr} {r : FaultRecord} (h : Raises s i r) : (commandFields i).isSome = true := by
  cases h with
  | prologue _ f _ hf => rw [hf]; rfl
  | count | target => rfl

/-- The next state of `i` from `s`, one constructor for each way an instruction can end in one. -/
inductive Effect (s : State) : Instr → State → Prop where
  | raised (i : Instr) (r : FaultRecord) (hr : Raises s i r) (h : s.fault = none) :
      Effect s i { s with fault := some r }
  | ignored (i : Instr) (hb : bufferCommand i = true) (h : s.Ready) : Effect s i s
  | digit (dev : Byte) (arg : BitVec 16) (h : s.Ready) (hd : dev.toNat < s.count)
      (hn : isDigitValue (signedNumber arg) = true) :
      Effect s (.renderDigit dev arg) (s.renderGlyph dev.toNat (digitGlyph s.cfg (signedNumber arg).toNat))
  | letter (dev ch : Byte) (h : s.Ready) (hd : dev.toNat < s.count) (hl : isUpper (foldLetter ch) = true) :
      Effect s (.renderLetter dev ch) (s.renderGlyph dev.toNat (letterGlyph s.cfg (foldLetter ch - 0x41).toNat))
  | text (text : List Byte) (h : s.Ready) :
      Effect s (.renderText text) (s.fillDevices s.count fun d => charRows s.cfg (effectiveText text)[d]?)
  | clear (dev : Byte) (h : s.Ready) (hd : dev.toNat < s.count) : Effect s (.clearDevice dev) (s.clearCells dev.toNat)
  | colon (dev : Byte) (on : Bool) (h : s.Ready) (hd : dev.toNat < s.count) :
      Effect s (.setColon dev on)
        (s.setCell dev.toNat indicatorRow (colonCell on (s.cell dev.toNat indicatorRow)))
  | decimal (dev : Byte) (on : Bool) (h : s.Ready) (hd : dev.toNat < s.count) :
      Effect s (.setDecimal dev on)
        (s.setCell dev.toNat indicatorRow (decimalCell on (s.cell dev.toNat indicatorRow)))
  | degree (dev : Byte) (on : Bool) (h : s.Ready) (hd : dev.toNat < s.count) :
      Effect s (.setDegree dev on) (s.setRows dev.toNat (degreeRows s.cfg on))
  | indicators (h : s.Ready) : Effect s .clearAllIndicators (s.clearIndicators s.count)
  | broadcast (reg : Addr) (data : Byte) (h : s.Ready) (hw : (Instr.busBroadcast reg data).wf = true) :
      Effect s (.busBroadcast reg data) (s.broadcast { addr := reg, data := data })
  | targeted (dev : Byte) (reg : Addr) (data : Byte) (h : s.Ready) (hw : (Instr.busTargeted dev reg data).wf = true)
      (hd : dev.toNat < s.count) :
      Effect s (.busTargeted dev reg data)
        (s.transaction (targetedFrames s.count dev.toNat { addr := reg, data := data }))
  | refresh (h : s.Ready) : Effect s .refresh s.refreshAll
  | clearDisplay (h : s.Ready) : Effect s .clearDisplay (s.clearBuffer s.count).refreshAll
  | begin (n : Byte) (h : s.fault = none) (hlo : 1 ≤ n.toNat) (hhi : n.toNat ≤ s.cfg.nmax) :
      Effect s (.begin n) (((s.pinSetup.setCount n).clearBuffer n.toNat).configure).markInit
  | latched (i : Instr) (f : Frame) (hf : frameFields i = some f) :
      Effect s i (s.latchWith (Device.apply f.addr f.data Device.powerUp))

theorem ready_of {s : State} {op : BitVec 4} (hf : s.fault = none) (hop : op ≠ 0x0) (h : op = 0x0 ∨ s.init = true) :
    s.Ready :=
  ⟨hf, h.resolve_left hop⟩

/-- A frame kind always completes: the latching device applies the rule of its address (R173-R180). -/
theorem exec_frame {i : Instr} {f : Frame} (s : State) (hf : frameFields i = some f) :
    exec i s = .next (s.latchWith (Device.apply f.addr f.data Device.powerUp)) := by
  cases i <;> cases hf <;> rfl

/-- Every next state of exec is one of these effects. -/
theorem exec_effect {i : Instr} {s t : State} (h : exec i s = .next t) : Effect s i t := by
  rcases hff : frameFields i with _ | f
  case some =>
    rw [exec_frame s hff] at h
    obtain rfl := Host.Outcome.next.inj h
    exact .latched i f hff
  cases i <;> simp only [exec] at h
  case begin n =>
    obtain ⟨hf, ⟨r, hr, rfl⟩ | ⟨-, -, h⟩⟩ := State.runCommand_next h
    · exact .raised _ r (.prologue _ _ r rfl hr) hf
    · split at h
      · obtain rfl := Host.Outcome.next.inj h
        exact .raised _ _ (.count n (.inl ‹_›)) hf
      · split at h
        · obtain rfl := Host.Outcome.next.inj h
          exact .raised _ _ (.count n (.inr ‹_›)) hf
        · obtain rfl := Host.Outcome.next.inj h
          exact .begin n hf (by omega) (by omega)
  case busBroadcast reg data =>
    obtain ⟨hf, ⟨r, hr, rfl⟩ | ⟨hw, hi, h⟩⟩ := State.runCommand_next h
    · exact .raised _ r (.prologue _ _ r rfl hr) hf
    · obtain rfl := Host.Outcome.next.inj h
      exact .broadcast reg data (ready_of hf (by decide) hi) hw
  case busTargeted dev reg data =>
    obtain ⟨hf, ⟨r, hr, rfl⟩ | ⟨hw, hi, h⟩⟩ := State.runCommand_next h
    · exact .raised _ r (.prologue _ _ r rfl hr) hf
    · split at h
      · obtain rfl := Host.Outcome.next.inj h
        exact .raised _ _ (.target dev reg data (ready_of hf (by decide) hi) ‹_›) hf
      · obtain rfl := Host.Outcome.next.inj h
        exact .targeted dev reg data (ready_of hf (by decide) hi) hw (by omega)
  case renderDigit dev arg =>
    obtain ⟨hf, ⟨r, hr, rfl⟩ | ⟨-, hi, h⟩⟩ := State.runCommand_next h
    · exact .raised _ r (.prologue _ _ r rfl hr) hf
    · have hr := ready_of hf (by decide) hi
      obtain rfl | ⟨hd, h⟩ := State.guardDevice_next h
      · exact .ignored _ rfl hr
      · split at h
        · obtain rfl := Host.Outcome.next.inj h
          exact .digit dev arg hr hd ‹_›
        · obtain rfl := Host.Outcome.next.inj h
          exact .ignored _ rfl hr
  case renderLetter dev ch =>
    obtain ⟨hf, ⟨r, hr, rfl⟩ | ⟨-, hi, h⟩⟩ := State.runCommand_next h
    · exact .raised _ r (.prologue _ _ r rfl hr) hf
    · have hr := ready_of hf (by decide) hi
      obtain rfl | ⟨hd, h⟩ := State.guardDevice_next h
      · exact .ignored _ rfl hr
      · split at h
        · obtain rfl := Host.Outcome.next.inj h
          exact .letter dev ch hr hd ‹_›
        · obtain rfl := Host.Outcome.next.inj h
          exact .ignored _ rfl hr
  case renderText text =>
    obtain ⟨hf, ⟨r, hr, rfl⟩ | ⟨-, hi, h⟩⟩ := State.runCommand_next h
    · exact .raised _ r (.prologue _ _ r rfl hr) hf
    · obtain rfl := Host.Outcome.next.inj h
      exact .text text (ready_of hf (by decide) hi)
  case clearDevice dev =>
    obtain ⟨hf, ⟨r, hr, rfl⟩ | ⟨-, hi, h⟩⟩ := State.runCommand_next h
    · exact .raised _ r (.prologue _ _ r rfl hr) hf
    · have hr := ready_of hf (by decide) hi
      obtain rfl | ⟨hd, h⟩ := State.guardDevice_next h
      · exact .ignored _ rfl hr
      · obtain rfl := Host.Outcome.next.inj h
        exact .clear dev hr hd
  case setColon dev on =>
    obtain ⟨hf, ⟨r, hr, rfl⟩ | ⟨-, hi, h⟩⟩ := State.runCommand_next h
    · exact .raised _ r (.prologue _ _ r rfl hr) hf
    · have hr := ready_of hf (by decide) hi
      obtain rfl | ⟨hd, h⟩ := State.guardDevice_next h
      · exact .ignored _ rfl hr
      · obtain rfl := Host.Outcome.next.inj h
        exact .colon dev on hr hd
  case setDecimal dev on =>
    obtain ⟨hf, ⟨r, hr, rfl⟩ | ⟨-, hi, h⟩⟩ := State.runCommand_next h
    · exact .raised _ r (.prologue _ _ r rfl hr) hf
    · have hr := ready_of hf (by decide) hi
      obtain rfl | ⟨hd, h⟩ := State.guardDevice_next h
      · exact .ignored _ rfl hr
      · obtain rfl := Host.Outcome.next.inj h
        exact .decimal dev on hr hd
  case setDegree dev on =>
    obtain ⟨hf, ⟨r, hr, rfl⟩ | ⟨-, hi, h⟩⟩ := State.runCommand_next h
    · exact .raised _ r (.prologue _ _ r rfl hr) hf
    · have hr := ready_of hf (by decide) hi
      obtain rfl | ⟨hd, h⟩ := State.guardDevice_next h
      · exact .ignored _ rfl hr
      · obtain rfl := Host.Outcome.next.inj h
        exact .degree dev on hr hd
  case clearAllIndicators =>
    obtain ⟨hf, ⟨r, hr, rfl⟩ | ⟨-, hi, h⟩⟩ := State.runCommand_next h
    · exact .raised _ r (.prologue _ _ r rfl hr) hf
    · obtain rfl := Host.Outcome.next.inj h
      exact .indicators (ready_of hf (by decide) hi)
  case refresh =>
    obtain ⟨hf, ⟨r, hr, rfl⟩ | ⟨-, hi, h⟩⟩ := State.runCommand_next h
    · exact .raised _ r (.prologue _ _ r rfl hr) hf
    · obtain rfl := Host.Outcome.next.inj h
      exact .refresh (ready_of hf (by decide) hi)
  case clearDisplay =>
    obtain ⟨hf, ⟨r, hr, rfl⟩ | ⟨-, hi, h⟩⟩ := State.runCommand_next h
    · exact .raised _ r (.prologue _ _ r rfl hr) hf
    · obtain rfl := Host.Outcome.next.inj h
      exact .clearDisplay (ready_of hf (by decide) hi)
  all_goals cases hff

/-- A frame kind, and a command that finds no fault recorded, answer a next state. -/
theorem exec_next {i : Instr} {s : State} (h : s.fault = none ∨ commandFields i = none) : ∃ t, exec i s = .next t := by
  rcases h with h | h
  · cases i with
    | noop | digit0 | digit1 | digit2 | digit3 | digit4 | digit5 | digit6 | digit7 | decodeMode | intensity | scanLimit
    | shutdown | displayTest => exact ⟨_, rfl⟩
    | _ =>
      simp only [exec, execBegin, execBusBroadcast, execBusTargeted, execRenderDigit, execRenderLetter, execRenderText,
        execClearDevice, execSetColon, execSetDecimal, execSetDegree, execClearAllIndicators, execRefresh,
        execClearDisplay, State.runCommand, State.raise, State.guardDevice, State.ignore, h]
      repeat' split
      all_goals first | exact ⟨_, rfl⟩ | exact absurd ‹_› (by simp)
  · cases i with
    | noop | digit0 | digit1 | digit2 | digit3 | digit4 | digit5 | digit6 | digit7 | decodeMode | intensity | scanLimit
    | shutdown | displayTest => exact ⟨_, rfl⟩
    | _ => cases h

/-! ### What a step can do -/

theorem frameFields_of_frameKind {a : Addr} {b : Byte} {i : Instr} (h : frameKind a b = some i) :
    frameFields i = some { addr := a, data := b } := by
  obtain ⟨⟨v, hv⟩⟩ := a
  have hv' : v < 16 := hv
  interval_cases v <;> first | cases h; rfl | cases h

theorem frameKind_of_frameFields {i : Instr} {f : Frame} (h : frameFields i = some f) :
    frameKind f.addr f.data = some i := by
  cases i <;> cases h <;> rfl

/-- A device holding a frame of specified address latches that frame (R173). -/
theorem fetchFrame_cases (sr : FrameWord) :
    (∃ i, frameFields i = some { addr := frameAddr sr, data := frameData sr } ∧ fetchFrame sr = .frame i) ∨
    (addrUnspecified (frameAddr sr) = true ∧ fetchFrame sr = .unspecified) := by
  unfold fetchFrame
  rcases h : frameKind (frameAddr sr) (frameData sr) with _ | i
  · refine .inr ⟨?_, rfl⟩
    generalize frameAddr sr = a at h
    obtain ⟨⟨v, hv⟩⟩ := a
    have hv' : v < 16 := hv
    interval_cases v <;> first | rfl | cases h
  · exact .inl ⟨i, frameFields_of_frameKind h, rfl⟩

/-- What a step has before it, one case for each of `fetch`'s answers. -/
theorem fetch_cases (s : State) :
    (s.latchPending = true ∧
      ((∃ i f, frameFields i = some f ∧ fetch s = .frame i) ∨ fetch s = .unspecified ∨ fetch s = .noDevice)) ∨
    (s.latchPending = false ∧ s.fault ≠ none ∧ fetch s = .quiescent) ∨
    (s.TakesCommand ∧ fetch s = fetchCommand s.port) := by
  unfold fetch
  by_cases hl : s.latchPending = true
  · refine .inl ⟨hl, ?_⟩
    rw [if_pos hl]
    rcases s.chain[s.latchPos]? with _ | d
    · exact .inr (.inr rfl)
    · rcases fetchFrame_cases d.sr with ⟨i, hi, h⟩ | ⟨-, h⟩
      · exact .inl ⟨i, _, hi, h⟩
      · exact .inr (.inl h)
  · have hl' : s.latchPending = false := by simpa using hl
    rw [if_neg hl]
    rcases hf : s.fault with _ | r
    · exact .inr (.inr ⟨⟨hl', hf⟩, rfl⟩)
    · exact .inr (.inl ⟨hl', by simp, rfl⟩)

/-- What the port offers: a command, an illegal command, or nothing whole yet. -/
theorem fetchCommand_cases (port : List Byte) :
    (∃ i rest, decode port = .ok (i, rest) ∧ fetchCommand port = .command i rest) ∨
    (∃ w, fetchCommand port = .illegal w (portAfter w port)) ∨ fetchCommand port = .waiting := by
  unfold fetchCommand
  rcases decode port with e | ⟨i, rest⟩
  · cases e <;> first | exact .inr (.inl ⟨_, rfl⟩) | exact .inr (.inr rfl)
  · exact .inl ⟨i, rest, rfl, rfl⟩

/-- Every next state of a step: waiting, an illegal word's fault, a latch, or an instruction's effect. -/
theorem step_cases {s t : State} (h : step s = .next t) :
    (t = s ∧ s.fault = none) ∨
    (∃ w rest, s.fault = none ∧ t = { s with fault := some (.illegalCommand w), port := rest }) ∨
    t = s.endLatch ∨ t = s.latchUnspecified ∨
    (∃ i rest, s.TakesCommand ∧ decode s.port = .ok (i, rest) ∧ Effect { s with port := rest } i t) ∨
    (∃ i f, frameFields i = some f ∧ Effect s i t) := by
  unfold step at h
  rcases fetch_cases s with ⟨-, ⟨i, f, hi, hf⟩ | hf | hf⟩ | ⟨-, -, hf⟩ | ⟨hs, hf⟩
  · rw [hf] at h
    exact .inr (.inr (.inr (.inr (.inr ⟨i, f, hi, exec_effect h⟩))))
  · rw [hf] at h
    cases h
    exact .inr (.inr (.inr (.inl rfl)))
  · rw [hf] at h
    cases h
    exact .inr (.inr (.inl rfl))
  · rw [hf] at h
    cases h
  · rcases fetchCommand_cases s.port with ⟨i, rest, hd, hc⟩ | ⟨w, hc⟩ | hc <;> rw [hf, hc] at h
    · exact .inr (.inr (.inr (.inr (.inl ⟨i, rest, hs, hd, exec_effect h⟩))))
    · cases h
      exact .inr (.inl ⟨w, _, hs.2, rfl⟩)
    · cases h
      exact .inl ⟨rfl, hs.2⟩

end Sys2Proof.Machine
end

