-- ==== Sys2Proof/Laws/Decode.lean ====
section
/-! SUPPORT. What an accepted command says of the bytes it was decoded from. -/

namespace Sys2Proof

theorem frameFields_of_command {i : Instr} (h : (commandFields i).isSome = true) : frameFields i = none := by
  cases i <;> first | rfl | cases h

/-- A word that decodes holds the fields of the instruction it decodes to, whose payload is the text. -/
theorem decodeWord_ok {f : CmdFields} {text : List Byte} {i : Instr} (hlen : text.length = payloadLength f.toWord)
    (h : decodeWord f.toWord text = .ok i) : i.wf = true ∧ commandFields i = some f ∧ text = payload i := by
  rcases f with ⟨op, dev, reg, arg⟩
  obtain ⟨k, rfl⟩ : ∃ k : Fin 16, op = BitVec.ofNat 4 k := ⟨op.toFin, by simp⟩
  have hon : BitVec.extractLsb' 1 15 arg = 0#15 → 0#15 ++ BitVec.ofBool arg[0] = arg := arg_of_on arg
  have harg := arg.isLt
  fin_cases k <;>
    simp only [decodeWord, CmdFields.ofWord_toWord, requireZeros, requireBus, CmdFields.argHigh, CmdFields.argLow]
      at h <;> simp at h hlen
  all_goals (repeat' split at h) <;> cases h
  all_goals simp_all [Instr.wf, commandFields, payload, reservedAddr, arg_of_argHigh]

/-- Bytes that decode are the encoding of a well-formed command and what follows it. -/
theorem decode_ok {bs rest : List Byte} {i : Instr} (h : decode bs = .ok (i, rest)) :
    i.wf = true ∧ (commandFields i).isSome = true ∧ bs = wordBytes (commandWord i) ++ payload i ++ rest := by
  rcases bs with _ | ⟨b3, _ | ⟨b2, _ | ⟨b1, _ | ⟨b0, bs⟩⟩⟩⟩
  · cases h
  · cases h
  · cases h
  · cases h
  · rw [decode, ← CmdFields.toWord_ofWord (joinWord b3 b2 b1 b0), decodeCommand] at h
    split at h
    · cases h
    · rename_i hlen
      rcases hj : decodeWord (CmdFields.ofWord (joinWord b3 b2 b1 b0)).toWord
        (bs.take (payloadLength (CmdFields.ofWord (joinWord b3 b2 b1 b0)).toWord)) with e | j
      · rw [hj] at h
        cases h
      · rw [hj] at h
        cases h
        obtain ⟨hw, hf, hp⟩ := decodeWord_ok (by rw [List.length_take]; omega) hj
        refine ⟨hw, by rw [hf]; rfl, ?_⟩
        rw [← hp, commandWord, hf]
        simp only [CmdFields.toWord_ofWord, wordBytes_joinWord, List.append_assoc, List.take_append_drop]
        rfl

end Sys2Proof
end

