-- ==== Sys2Proof/Laws/Effects.lean ====
section
/-! SUPPORT. The shape of every effect: what the operations of each command keep, and the five shapes a next state of
exec can have, from which whole-machine claims follow. -/

namespace Sys2Proof.Machine

/-! ### Changes of the buffer -/

theorem State.setCell_onlyBuffer (s : State) (d r : Nat) (v : Byte) : s.OnlyBuffer (s.setCell d r v) := rfl

theorem State.setRows_onlyBuffer (s : State) (d : Nat) (vs : List Byte) : s.OnlyBuffer (s.setRows d vs) := by
  unfold State.OnlyBuffer
  ext1 <;> simp

theorem State.fillDevices_onlyBuffer (s : State) (n : Nat) (c : Nat → List Byte) :
    s.OnlyBuffer (s.fillDevices n c) := by
  unfold State.OnlyBuffer
  ext1 <;> simp

theorem State.clearIndicators_onlyBuffer (s : State) (n : Nat) : s.OnlyBuffer (s.clearIndicators n) := by
  unfold State.OnlyBuffer
  ext1 <;> simp

theorem State.OnlyBuffer.ready {s t : State} (h : s.OnlyBuffer t) (hr : s.Ready) : t.Ready := by rw [h]; exact hr

theorem State.OnlyBuffer.count {s t : State} (h : s.OnlyBuffer t) : t.count = s.count := by rw [h]; rfl

theorem State.OnlyBuffer.cfg {s t : State} (h : s.OnlyBuffer t) : t.cfg = s.cfg := by rw [h]

/-- A glyph's rows, cell by cell (R121). -/
theorem State.cell_renderGlyph (s : State) (d : Nat) (p : Glyph) {d' r : Nat} (hr : r < 8) :
    (s.renderGlyph d p).cell d' r = if d' = d then (if r = 7 then 0 else glyphRow p r) else s.cell d' r := by
  rw [State.renderGlyph, State.cell_setRows _ _ (by simp) hr]
  by_cases hd : d' = d
  · have h7 : r < 7 ↔ ¬ r = 7 := by omega
    simp only [hd, glyphRows_length, hr, and_self, if_true, glyphRows_getD p hr, h7]
    by_cases h : r = 7 <;> simp [h]
  · simp [hd]

theorem State.cell_clearBuffer (s : State) (n : Nat) {d r : Nat} (hr : r < 8) :
    (s.clearBuffer n).cell d r = if d < n then 0 else s.cell d r := by
  rw [State.clearBuffer, State.cell_fillDevices _ _ _ (fun _ => rfl) hr, blankRows_getD]

/-! ### Changes of the wires -/

theorem State.OnlyWires.cell {s t : State} (h : s.OnlyWires t) (d r : Nat) : t.cell d r = s.cell d r := by rw [h]; rfl

theorem State.OnlyWires.count {s t : State} (h : s.OnlyWires t) : t.count = s.count := by rw [h]; rfl

theorem State.OnlyWires.ready {s t : State} (h : s.OnlyWires t) (hr : s.Ready) : t.Ready := by rw [h]; exact hr

theorem State.Sends.append {s t u : State} {xs ys : List (List Frame)} (h : s.Sends t xs) (h' : t.Sends u ys) :
    s.Sends u (xs ++ ys) :=
  ⟨by rw [h'.1, h.1, List.flatMap_append, List.append_assoc], h'.2⟩

/-- The frames go out to specified addresses, one frame for each device. -/
def FramesFit (n : Nat) (txs : List (List Frame)) : Prop :=
  ∀ fs ∈ txs, fs.length = n ∧ ∀ f ∈ fs, f.addr ≠ 0xD ∧ f.addr ≠ 0xE

theorem framesFor_fit {n : Nat} {f : Nat → Frame} (h : ∀ d, (f d).addr ≠ 0xD ∧ (f d).addr ≠ 0xE) :
    FramesFit n [framesFor n f] := by
  intro fs hfs
  obtain rfl := List.mem_singleton.1 hfs
  refine ⟨by simp, fun x hx => ?_⟩
  obtain ⟨d, -, rfl⟩ := mem_framesFor hx
  exact h d

theorem FramesFit.append {n : Nat} {xs ys : List (List Frame)} (h : FramesFit n xs) (h' : FramesFit n ys) :
    FramesFit n (xs ++ ys) := fun fs hfs => (List.mem_append.1 hfs).elim (h fs) (h' fs)

/-- A broadcast: what goes out, and what every device has become (R103). -/
theorem State.broadcast_spec (s : State) {n : Nat} (f : Frame) (hf : f.addr ≠ 0xD ∧ f.addr ≠ 0xE) (hn : s.count = n) :
    s.OnlyWires (s.broadcast f) ∧ s.Sends (s.broadcast f) [List.replicate n f] ∧ (s.broadcast f).count = n ∧
      s.EachDevice (s.broadcast f) n fun _ d => Device.apply f.addr f.data d { d with sr := f.word } := by
  subst hn
  refine ⟨State.framesFor_onlyWires s _ fun _ => hf, ?_, State.transaction_count s _,
    State.framesFor_eachDevice s _ fun _ => hf⟩
  rw [← framesFor_const]
  exact State.transaction_sends _ _ (by simp)

theorem initSequence_specified (cfg : Config) : ∀ f ∈ initSequence cfg, f.addr ≠ 0xD ∧ f.addr ≠ 0xE := by
  simp [initSequence]

/-- A sequence of broadcasts: one transaction of equal frames for each. -/
theorem State.broadcasts_spec (fs : List Frame) (hfs : ∀ f ∈ fs, f.addr ≠ 0xD ∧ f.addr ≠ 0xE) (hne : fs ≠ [])
    (s : State) :
    s.OnlyWires (fs.foldl (fun s f => s.broadcast f) s) ∧
      s.Sends (fs.foldl (fun s f => s.broadcast f) s) (fs.map fun f => List.replicate s.count f) := by
  induction fs generalizing s with
  | nil => exact absurd rfl hne
  | cons f fs ih =>
    obtain ⟨hw, hs, hc, -⟩ := s.broadcast_spec f (hfs f (by simp)) rfl
    by_cases hnil : fs = []
    · subst hnil
      exact ⟨hw, hs⟩
    · obtain ⟨hw', hs'⟩ := ih (fun x hx => hfs x (by simp [hx])) hnil (s.broadcast f)
      rw [hc] at hs'
      exact ⟨hw.trans hw', hs.append hs'⟩

/-- The configuration writes of BEGIN (R154). -/
theorem State.configure_spec (s : State) :
    s.OnlyWires s.configure ∧ s.Sends s.configure ((initSequence s.cfg).map fun f => List.replicate s.count f) :=
  State.broadcasts_spec _ (initSequence_specified _) (by simp [initSequence]) s

/-- REFRESH's eight transactions (R150). -/
theorem State.refreshAll_spec (s : State) :
    s.OnlyWires s.refreshAll ∧ s.Sends s.refreshAll ((List.range 8).map (rowFrames s)) :=
  ⟨State.refreshRows_onlyWires s (k := 8) (by omega), State.refreshRows_sends s (k := 8) (by omega)⟩

theorem rowFrames_fit (s : State) : FramesFit s.count ((List.range 8).map (rowFrames s)) := by
  intro fs hfs
  obtain ⟨r, hr, rfl⟩ := List.mem_map.1 hfs
  exact framesFor_fit (fun _ => rowAddr_specified (List.mem_range.1 hr)) _ (List.mem_singleton.2 rfl)

theorem EachDevice.length {s t : State} {n : Nat} {f : Nat → Device → Device} (h : s.EachDevice t n f) :
    t.chain.length = s.chain.length := by
  have key : ∀ p, p < t.chain.length ↔ p < s.chain.length := fun p => by
    rw [← not_iff_not, Nat.not_lt, Nat.not_lt, ← List.getElem?_eq_none_iff, ← List.getElem?_eq_none_iff, h p,
      Option.map_eq_none_iff]
  have h1 := key s.chain.length
  have h2 := key t.chain.length
  omega

theorem State.broadcast_chain_length (s : State) (f : Frame) : (s.broadcast f).chain.length = s.chain.length :=
  State.transaction_chain_length s _

theorem State.refreshAll_chain_length (s : State) : s.refreshAll.chain.length = s.chain.length :=
  EachDevice.length (State.refreshRows_eachDevice s (k := 8) (by omega))

theorem State.configure_chain_length (s : State) : s.configure.chain.length = s.chain.length := by
  unfold State.configure
  generalize initSequence s.cfg = fs
  induction fs generalizing s with
  | nil => rfl
  | cons f fs ih => exact (ih (s.broadcast f)).trans (s.broadcast_chain_length f)

/-! ### The state between BEGIN's clearing and its configuration writes -/

/-- Ports idle, count set, cells cleared: BEGIN before its first transaction (R153). -/
def State.beginCleared (n : Byte) (s : State) : State := (s.pinSetup.setCount n).clearBuffer n.toNat

theorem State.beginCleared_eq (n : Byte) (s : State) :
    s.beginCleared n =
      { s with
        driven := true, din := false, clk := false, cs := true, ndev := n, buf := (s.beginCleared n).buf } := by
  unfold State.beginCleared State.clearBuffer
  ext1 <;> simp

theorem State.beginCleared_count (n : Byte) (s : State) : (s.beginCleared n).count = n.toNat := by
  rw [State.beginCleared_eq]
  rfl

theorem State.cell_beginCleared (n : Byte) (s : State) {d r : Nat} (hr : r < 8) :
    (s.beginCleared n).cell d r = if d < n.toNat then 0 else s.cell d r := by
  rw [State.beginCleared, State.cell_clearBuffer _ _ hr]
  rfl

/-! ### The five shapes -/

/-- What a next state of `exec i s` can be. -/
inductive Shape (s : State) (i : Instr) (t : State) : Prop where
  /-- A fault is taken: nothing but FAULT changes. -/
  | raised (r : FaultRecord) (hr : Raises s i r) (h : s.fault = none)
      (ht : t = { s with fault := some r })
  /-- A buffer command. -/
  | buffer (hb : bufferCommand i = true) (h : s.Ready) (ht : s.OnlyBuffer t)
  /-- A command that sends transactions, one frame for each device. -/
  | sends (txs : List (List Frame)) (h : s.Ready) (hc : (commandFields i).isSome = true) (hn : ∀ n, i ≠ .begin n)
      (hlen : txs.length = transactionsOf i) (hfit : FramesFit s.count txs) (hs : s.Sends t txs)
      (ht : t = { s with buf := t.buf, trace := t.trace, din := t.din, clk := t.clk, cs := t.cs, chain := t.chain })
      (hch : t.chain.length = s.chain.length)
  /-- BEGIN with a legal count. -/
  | began (n : Byte) (hi : i = .begin n) (h : s.fault = none) (hlo : 1 ≤ n.toNat) (hhi : n.toNat ≤ s.cfg.nmax)
      (txs : List (List Frame)) (hlen : txs.length = 6) (hfit : FramesFit n.toNat txs) (hs : s.Sends t txs)
      (ht : t = { s with
        init := true, ndev := n, driven := true, buf := t.buf, trace := t.trace, din := t.din, clk := t.clk,
        cs := t.cs, chain := t.chain })
      (hch : t.chain.length = s.chain.length)
  /-- A device latches a frame of specified address. -/
  | latched (f : Frame) (hf : frameFields i = some f)
      (ht : t = s.latchWith (Device.apply f.addr f.data Device.powerUp))

theorem bus_addr {reg : Addr} (h : (!reservedAddr reg) = true) : reg ≠ 0xD ∧ reg ≠ 0xE := by
  simpa [reservedAddr] using h

theorem Effect.shape {s t : State} {i : Instr} (h : Effect s i t) : Shape s i t := by
  cases h with
  | raised _ r hc h => exact .raised r hc h rfl
  | ignored _ hb h => exact .buffer hb h rfl
  | digit dev arg h hd hn => exact .buffer rfl h (State.setRows_onlyBuffer s _ _)
  | letter dev ch h hd hl => exact .buffer rfl h (State.setRows_onlyBuffer s _ _)
  | text text h => exact .buffer rfl h (State.fillDevices_onlyBuffer s _ _)
  | clear dev h hd => exact .buffer rfl h (State.setRows_onlyBuffer s _ _)
  | colon dev on h hd => exact .buffer rfl h rfl
  | decimal dev on h hd => exact .buffer rfl h rfl
  | degree dev on h hd => exact .buffer rfl h (State.setRows_onlyBuffer s _ _)
  | indicators h => exact .buffer rfl h (State.clearIndicators_onlyBuffer s _)
  | broadcast reg data h hw =>
    have ha := bus_addr hw
    refine .sends _ h rfl (by simp) rfl (framesFor_fit (n := s.count) fun _ => ha)
      (State.transaction_sends _ _ (by simp)) ?_ (State.transaction_chain_length s _)
    have := State.framesFor_onlyWires s (fun _ => ⟨reg, data⟩) fun _ => ha
    rw [State.broadcast]
    generalize s.transaction _ = t at *
    rw [this]
  | targeted dev reg data h hw hd =>
    have ha : ∀ d, (if d = dev.toNat then (⟨reg, data⟩ : Frame) else Frame.noop).addr ≠ 0xD ∧
        (if d = dev.toNat then (⟨reg, data⟩ : Frame) else Frame.noop).addr ≠ 0xE := by
      intro d
      split
      · exact bus_addr hw
      · decide
    refine .sends _ h rfl (by simp) rfl (framesFor_fit (n := s.count) ha)
      (State.transaction_sends _ _ (framesFor_length _ _)) ?_ (State.transaction_chain_length s _)
    have := State.framesFor_onlyWires s _ ha
    rw [targetedFrames]
    generalize s.transaction _ = t at *
    rw [this]
  | refresh h =>
    obtain ⟨hw, hs⟩ := s.refreshAll_spec
    have hch := s.refreshAll_chain_length
    generalize s.refreshAll = t at *
    refine .sends ((List.range 8).map (rowFrames s)) h rfl (by simp) (by simp [transactionsOf]) (rowFrames_fit s) hs ?_ hch
    rw [hw]
  | clearDisplay h =>
    have hb : s.OnlyBuffer (s.clearBuffer s.count) := State.fillDevices_onlyBuffer s _ _
    generalize s.clearBuffer s.count = m at *
    obtain ⟨hw, hs⟩ := m.refreshAll_spec
    have hch := m.refreshAll_chain_length
    have hfit := rowFrames_fit m
    rw [hb.count] at hfit
    generalize m.refreshAll = t at *
    refine .sends ((List.range 8).map (rowFrames m)) h rfl (by simp) (by simp [transactionsOf]) hfit ⟨?_, hs.2⟩ ?_ (by rw [hch, hb])
    · rw [hs.1, hb]
    · rw [hw, hb]
  | begin n h hlo hhi =>
    have hm := s.beginCleared_eq n
    have hc := s.beginCleared_count n
    rw [show (State.clearBuffer n.toNat (State.setCount n s.pinSetup)) = s.beginCleared n from rfl]
    generalize s.beginCleared n = m at *
    obtain ⟨hw, hs⟩ := m.configure_spec
    have hch := m.configure_chain_length
    have hcfg : m.cfg = s.cfg := by rw [hm]
    rw [hc, hcfg] at hs
    generalize m.configure = t at *
    refine .began n rfl h hlo hhi ((initSequence s.cfg).map fun f => List.replicate n.toNat f) rfl ?_ ⟨?_, hs.2⟩ ?_ ?_
    · exact fun fs hfs => by
        obtain ⟨f, hf, rfl⟩ := List.mem_map.1 hfs
        refine ⟨by simp, fun x hx => ?_⟩
        rw [List.eq_of_mem_replicate hx]
        exact initSequence_specified _ f hf
    · rw [State.markInit_trace, hs.1, hm]
    · unfold State.markInit
      rw [hw, hm]
    · rw [State.markInit_chain, hch, hm]
  | latched _ f hf => exact .latched f hf rfl

theorem exec_shape {i : Instr} {s t : State} (h : exec i s = .next t) : Shape s i t := (exec_effect h).shape

/-- Every next state of a step has one of the five shapes, from the state whose port has lost the command's bytes; or
the step was none of exec's, and changed only what waiting, an illegal word or a latch may change. -/
theorem step_shape {s t : State} (h : step s = .next t) :
    (∃ i rest, Effect { s with port := rest } i t) ∨
    (t = { s with fault := t.fault, port := t.port, latchPending := t.latchPending, chain := t.chain, draws := t.draws } ∧
      t.chain.length = s.chain.length ∧ (s.fault ≠ none → t.fault = s.fault) ∧
      (t.latchPending = true → s.latchPending = true)) := by
  rcases step_cases h with ⟨rfl, -⟩ | ⟨w, rest, hf, rfl⟩ | rfl | rfl | ⟨i, rest, hs, -, he⟩ | ⟨i, f, hf, he⟩
  · exact .inr ⟨rfl, rfl, fun _ => rfl, id⟩
  · exact .inr ⟨rfl, rfl, fun h => absurd hf h, id⟩
  · exact .inr ⟨rfl, rfl, fun _ => rfl, fun h => absurd h (by simp)⟩
  · exact .inr ⟨rfl, by simp, fun _ => rfl, fun h => absurd h (by simp)⟩
  · exact .inl ⟨i, rest, he⟩
  · exact .inl ⟨i, s.port, he⟩

/-! ### Which cells an effect writes -/

/-- The buffer of `t` is that of `s` after writes to cells of devices below `n`. -/
def State.Written (s t : State) (n : Nat) : Prop :=
  ∃ ws : List (Nat × Nat × Byte),
    t.buf = ws.foldl (fun m w => m.write (cellAddr w.1 w.2.1) w.2.2) s.buf ∧ ∀ w ∈ ws, w.1 < n ∧ w.2.1 < 8

theorem State.Written.same {s t : State} (n : Nat) (h : t.buf = s.buf) : s.Written t n := ⟨[], h, by simp⟩

theorem State.Written.trans {s t u : State} {n : Nat} (h : s.Written t n) (h' : t.Written u n) : s.Written u n := by
  obtain ⟨ws, hb, hw⟩ := h
  obtain ⟨ws', hb', hw'⟩ := h'
  exact ⟨ws ++ ws', by rw [List.foldl_append, ← hb, hb'], fun w hm => (List.mem_append.1 hm).elim (hw w) (hw' w)⟩

theorem State.setCell_written (s : State) {d r n : Nat} (v : Byte) (hd : d < n) (hr : r < 8) :
    s.Written (s.setCell d r v) n := by
  refine ⟨[(d, r, v)], rfl, fun w hw => ?_⟩
  obtain rfl := List.mem_singleton.1 hw
  exact ⟨hd, hr⟩

theorem State.setRowsFrom_written (s : State) {d r n : Nat} (vs : List Byte) (hd : d < n) (h : r + vs.length ≤ 8) :
    s.Written (s.setRowsFrom d r vs) n := by
  induction vs generalizing r s with
  | nil => exact .same n rfl
  | cons v vs ih =>
    simp only [List.length_cons] at h
    exact (s.setCell_written v hd (by omega)).trans (ih (s.setCell d r v) (by omega))

theorem State.setRows_written (s : State) {d n : Nat} (vs : List Byte) (hd : d < n) (h : vs.length ≤ 8) :
    s.Written (s.setRows d vs) n :=
  s.setRowsFrom_written vs hd (by omega)

theorem State.fillDevices_written (s : State) (n : Nat) (c : Nat → List Byte) (h : ∀ d, (c d).length = 8) :
    s.Written (s.fillDevices n c) n := by
  unfold State.fillDevices
  have hl : ∀ d ∈ List.range n, d < n := fun d => List.mem_range.1
  generalize List.range n = l at hl
  induction l generalizing s with
  | nil => exact .same n rfl
  | cons d l ih =>
    exact (s.setRows_written (c d) (hl d (by simp)) (by rw [h])).trans
      (ih (s.setRows d (c d)) fun x hx => hl x (by simp [hx]))

theorem State.clearIndicators_written (s : State) (n : Nat) : s.Written (s.clearIndicators n) n := by
  unfold State.clearIndicators
  have hl : ∀ d ∈ List.range n, d < n := fun d => List.mem_range.1
  generalize List.range n = l at hl
  induction l generalizing s with
  | nil => exact .same n rfl
  | cons d l ih =>
    exact (s.setCell_written 0x00 (hl d (by simp)) (by decide)).trans
      (ih (s.setCell d indicatorRow 0x00) fun x hx => hl x (by simp [hx]))

theorem degreeRows_length (cfg : Config) (on : Bool) : (degreeRows cfg on).length = 2 := by cases on <;> rfl

/-- An effect writes cells of addressable devices only (R23, R50). -/
theorem Effect.written {s t : State} {i : Instr} (h : Effect s i t) : s.Written t t.count := by
  cases h with
  | raised | ignored | latched => exact .same _ rfl
  | digit dev arg h hd hn =>
    rw [State.renderGlyph, (State.setRows_onlyBuffer s _ _).count]
    exact s.setRows_written _ hd (by simp)
  | letter dev ch h hd hl =>
    rw [State.renderGlyph, (State.setRows_onlyBuffer s _ _).count]
    exact s.setRows_written _ hd (by simp)
  | text text h =>
    rw [State.fillDevices_count]
    exact s.fillDevices_written _ _ fun d => charRows_length _ _
  | clear dev h hd =>
    rw [State.clearCells, (State.setRows_onlyBuffer s _ _).count]
    exact s.setRows_written _ hd (by simp)
  | colon dev on h hd => exact s.setCell_written _ hd (by decide)
  | decimal dev on h hd => exact s.setCell_written _ hd (by decide)
  | degree dev on h hd =>
    rw [(State.setRows_onlyBuffer s _ _).count]
    exact s.setRows_written _ hd (by rw [degreeRows_length]; omega)
  | indicators h =>
    rw [(State.clearIndicators_onlyBuffer s _).count]
    exact s.clearIndicators_written _
  | broadcast => exact .same _ (State.transaction_buf s _)
  | targeted => exact .same _ (State.transaction_buf s _)
  | refresh h =>
    have hw := s.refreshAll_spec.1
    generalize s.refreshAll = t at *
    exact .same _ (by rw [hw])
  | clearDisplay h =>
    have hm := s.fillDevices_written s.count (fun _ => blankRows) fun _ => rfl
    have hb : s.OnlyBuffer (s.clearBuffer s.count) := State.fillDevices_onlyBuffer s _ _
    rw [show s.fillDevices s.count (fun _ => blankRows) = s.clearBuffer s.count from rfl] at hm
    generalize s.clearBuffer s.count = m at *
    have hw := m.refreshAll_spec.1
    generalize m.refreshAll = t at *
    rw [hw.count, hb.count]
    exact hm.trans (.same _ (by rw [hw]))
  | begin n h hlo hhi =>
    have hm := (s.pinSetup.setCount n).fillDevices_written n.toNat (fun _ => blankRows) fun _ => rfl
    have hc := s.beginCleared_count n
    rw [show State.fillDevices n.toNat (fun _ => blankRows) (State.setCount n s.pinSetup) = s.beginCleared n from rfl]
      at hm
    rw [show (State.clearBuffer n.toNat (State.setCount n s.pinSetup)) = s.beginCleared n from rfl]
    generalize s.beginCleared n = m at *
    have hw := m.configure_spec.1
    generalize m.configure = t at *
    have hct : t.markInit.count = n.toNat := by rw [show t.markInit.count = t.count from rfl, hw.count, hc]
    rw [hct]
    refine State.Written.trans (t := m) hm (.same _ ?_)
    rw [State.markInit_buf, hw]

theorem State.Written.wf {s t : State} {n : Nat} (h : s.Written t n) (hs : s.buf.wf = true) : t.buf.wf = true := by
  obtain ⟨ws, hb, -⟩ := h
  rw [hb]
  clear hb
  generalize s.buf = m at hs
  induction ws generalizing m with
  | nil => exact hs
  | cons w ws ih => exact ih _ (Memory.wf_write _ _ hs)

/-- A write lists at most its own cell more. -/
theorem Memory.mem_write {m : Memory} {a : Nat} {v : Byte} {c : Host.Cell} (h : c ∈ m.write a v) : c.1 = a ∨ c ∈ m := by
  have key : ∀ n : Memory, c ∈ Memory.insert n a v → c.1 = a ∨ c ∈ n := by
    intro n
    induction n with
    | nil =>
      intro h
      simp only [Memory.insert, Memory.entry] at h
      split at h
      · exact .inr h
      · exact .inl (by rw [List.mem_singleton.1 h])
    | cons e n ih =>
      intro h
      simp only [Memory.insert] at h
      split at h
      · rcases List.mem_cons.1 h with rfl | h
        · exact .inr (by simp)
        · exact (ih h).imp id fun h => List.mem_cons_of_mem _ h
      · rcases List.mem_append.1 h with h | h
        · simp only [Memory.entry] at h
          split at h
          · exact absurd h (by simp)
          · exact .inl (by rw [List.mem_singleton.1 h])
        · exact .inr h
  exact (key _ h).imp id fun h => (List.mem_filter.1 h).1

theorem State.Written.inside {s t : State} {n k : Nat} (h : s.Written t n) (hn : n ≤ k)
    (hs : ∀ c ∈ s.buf, c.1 < 8 * k) : ∀ c ∈ t.buf, c.1 < 8 * k := by
  obtain ⟨ws, hb, hw⟩ := h
  rw [hb]
  clear hb
  generalize s.buf = m at hs
  induction ws generalizing m with
  | nil => exact hs
  | cons w ws ih =>
    refine ih (fun x hx => hw x (by simp [hx])) _ fun c hc => ?_
    rcases Memory.mem_write hc with hc | hc
    · have := hw w (by simp)
      rw [hc, cellAddr, rows]
      omega
    · exact hs c hc

end Sys2Proof.Machine
end

