-- ==== Sys2Proof/Laws/Isolation.lean ====
section
/-! SUPPORT. States that differ in the device chain only stay so under every operation of the block: the block reads
nothing from the chain (R107). -/

namespace Sys2Proof.Machine

/-- `t` is `s` with another chain behind the wires. -/
def State.OffChain (s t : State) : Prop := t = { s with chain := t.chain, draws := t.draws }

theorem State.OffChain.refl (s : State) : s.OffChain s := rfl

theorem State.OffChain.other (s : State) (chain : List Device) (draws : Nat) :
    s.OffChain { s with chain := chain, draws := draws } := rfl

theorem State.OffChain.fault {s t : State} (h : s.OffChain t) : t.fault = s.fault := by rw [h]
theorem State.OffChain.init {s t : State} (h : s.OffChain t) : t.init = s.init := by rw [h]
theorem State.OffChain.cfg {s t : State} (h : s.OffChain t) : t.cfg = s.cfg := by rw [h]
theorem State.OffChain.count {s t : State} (h : s.OffChain t) : t.count = s.count := by rw [h]; rfl
theorem State.OffChain.cell {s t : State} (h : s.OffChain t) (d r : Nat) : t.cell d r = s.cell d r := by rw [h]; rfl

/-- A loop keeps what each of its steps keeps. -/
theorem State.OffChain.foldl {α : Type} {s t : State} (f : State → α → State)
    (hf : ∀ (s t : State) a, s.OffChain t → (f s a).OffChain (f t a)) (as : List α) (h : s.OffChain t) :
    (as.foldl f s).OffChain (as.foldl f t) := by
  induction as generalizing s t with
  | nil => exact h
  | cons a as ih => exact ih (hf s t a h)

theorem State.OffChain.setCell {s t : State} (h : s.OffChain t) (d r : Nat) (v : Byte) :
    (s.setCell d r v).OffChain (t.setCell d r v) := by
  unfold State.OffChain at *
  unfold State.setCell
  rw [h]

theorem State.OffChain.setRowsFrom {s t : State} (h : s.OffChain t) (d r : Nat) (vs : List Byte) :
    (s.setRowsFrom d r vs).OffChain (t.setRowsFrom d r vs) := by
  induction vs generalizing r s t with
  | nil => exact h
  | cons v vs ih => exact ih (h.setCell d r v) (r + 1)

theorem State.OffChain.setRows {s t : State} (h : s.OffChain t) (d : Nat) (vs : List Byte) :
    (s.setRows d vs).OffChain (t.setRows d vs) :=
  h.setRowsFrom d 0 vs

theorem State.OffChain.fillDevices {s t : State} (h : s.OffChain t) (n : Nat) (c : Nat → List Byte) :
    (s.fillDevices n c).OffChain (t.fillDevices n c) :=
  State.OffChain.foldl _ (fun _ _ d h => h.setRows d (c d)) _ h

theorem State.OffChain.clearIndicators {s t : State} (h : s.OffChain t) (n : Nat) :
    (s.clearIndicators n).OffChain (t.clearIndicators n) :=
  State.OffChain.foldl _ (fun _ _ d h => h.setCell d indicatorRow 0x00) _ h

theorem State.OffChain.emit {s t : State} (h : s.OffChain t) (e : WireEvent) : (s.emit e).OffChain (t.emit e) := by
  unfold State.OffChain at *
  cases e <;>
    simp only [State.emit, State.record, State.selectChip, State.releaseChip, State.driveData, State.clockRise,
      State.clockFall] <;> rw [h]

theorem State.OffChain.transaction {s t : State} (h : s.OffChain t) (fs : List Frame) :
    (s.transaction fs).OffChain (t.transaction fs) :=
  State.OffChain.foldl _ (fun _ _ e h => h.emit e) _ h

theorem State.OffChain.broadcast {s t : State} (h : s.OffChain t) (f : Frame) :
    (s.broadcast f).OffChain (t.broadcast f) := by
  unfold State.broadcast
  rw [h.count]
  exact h.transaction _

theorem State.OffChain.rowTransaction {s t : State} (h : s.OffChain t) (r : Nat) :
    (s.rowTransaction r).OffChain (t.rowTransaction r) := by
  have hf : rowFrames t r = rowFrames s r := by
    unfold rowFrames
    simp only [h.count, h.cell]
  unfold State.rowTransaction
  rw [hf]
  exact h.transaction _

theorem State.OffChain.refreshAll {s t : State} (h : s.OffChain t) : s.refreshAll.OffChain t.refreshAll :=
  State.OffChain.foldl _ (fun _ _ r h => h.rowTransaction r) _ h

theorem State.OffChain.configure {s t : State} (h : s.OffChain t) : s.configure.OffChain t.configure := by
  unfold State.configure
  rw [h.cfg]
  exact State.OffChain.foldl _ (fun _ _ f h => h.broadcast f) _ h

theorem State.OffChain.raise {s t : State} (h : s.OffChain t) (f : FaultRecord) : SameBlock (s.raise f) (t.raise f) := by
  show ({ t with fault := some f } : State) = _
  rw [h]

/-- The prologue carries agreement on the block through to the body. -/
theorem State.OffChain.runCommand {s t : State} (h : s.OffChain t) (i : Instr) (op : BitVec 4) (body : State → Result)
    (hb : ∀ s t : State, s.OffChain t → SameBlock (body s) (body t)) :
    SameBlock (s.runCommand i op body) (t.runCommand i op body) := by
  unfold State.runCommand
  rw [h.fault, h.init]
  by_cases h1 : s.fault.isSome = true
  · rw [if_pos h1, if_pos h1]
    rfl
  · rw [if_neg h1, if_neg h1]
    by_cases h2 : (!i.wf) = true
    · rw [if_pos h2, if_pos h2]
      exact h.raise _
    · rw [if_neg h2, if_neg h2]
      by_cases h3 : (op != 0x0 && !s.init) = true
      · rw [if_pos h3, if_pos h3]
        exact h.raise _
      · rw [if_neg h3, if_neg h3]
        exact hb s t h

theorem State.OffChain.guardDevice {s t : State} (h : s.OffChain t) (dev : Byte) (body : State → Result)
    (hb : SameBlock (body s) (body t)) : SameBlock (s.guardDevice dev body) (t.guardDevice dev body) := by
  unfold State.guardDevice
  rw [h.count]
  by_cases h1 : dev.toNat < s.count
  · rw [if_pos h1, if_pos h1]
    exact hb
  · rw [if_neg h1, if_neg h1]
    exact h

end Sys2Proof.Machine
end

