-- ==== Sys2Proof/Laws/PerInstr.lean ====
section
/-! SUPPORT. Laws stated for all instructions, one lemma for each constructor. -/

namespace Sys2Proof.Laws.EncodedLength

/-- The encoding is one 32-bit word and its payload for a command (R76, R80), one 16-bit frame for a frame kind
(R71). -/
def Statement (i : Instr) : Prop :=
  (encode i).length = if (commandFields i).isSome then 4 + (payload i).length else 2

theorem begin (n : Byte) : Statement (.begin n) := rfl
theorem busBroadcast (reg : Addr) (data : Byte) : Statement (.busBroadcast reg data) := rfl
theorem busTargeted (dev : Byte) (reg : Addr) (data : Byte) : Statement (.busTargeted dev reg data) := rfl
theorem renderDigit (dev : Byte) (arg : BitVec 16) : Statement (.renderDigit dev arg) := rfl
theorem renderLetter (dev : Byte) (ch : Byte) : Statement (.renderLetter dev ch) := rfl
theorem renderText (text : List Byte) : Statement (.renderText text) := by simp [Statement, encode, frameFields, commandFields, payload, wordBytes]; omega
theorem clearDevice (dev : Byte) : Statement (.clearDevice dev) := rfl
theorem setColon (dev : Byte) (on : Bool) : Statement (.setColon dev on) := rfl
theorem setDecimal (dev : Byte) (on : Bool) : Statement (.setDecimal dev on) := rfl
theorem setDegree (dev : Byte) (on : Bool) : Statement (.setDegree dev on) := rfl
theorem clearAllIndicators : Statement .clearAllIndicators := rfl
theorem refresh : Statement .refresh := rfl
theorem clearDisplay : Statement .clearDisplay := rfl
theorem noop (data : Byte) : Statement (.noop data) := rfl
theorem digit0 (data : Byte) : Statement (.digit0 data) := rfl
theorem digit1 (data : Byte) : Statement (.digit1 data) := rfl
theorem digit2 (data : Byte) : Statement (.digit2 data) := rfl
theorem digit3 (data : Byte) : Statement (.digit3 data) := rfl
theorem digit4 (data : Byte) : Statement (.digit4 data) := rfl
theorem digit5 (data : Byte) : Statement (.digit5 data) := rfl
theorem digit6 (data : Byte) : Statement (.digit6 data) := rfl
theorem digit7 (data : Byte) : Statement (.digit7 data) := rfl
theorem decodeMode (data : Byte) : Statement (.decodeMode data) := rfl
theorem intensity (data : Byte) : Statement (.intensity data) := rfl
theorem scanLimit (data : Byte) : Statement (.scanLimit data) := rfl
theorem shutdown (data : Byte) : Statement (.shutdown data) := rfl
theorem displayTest (data : Byte) : Statement (.displayTest data) := rfl

end Sys2Proof.Laws.EncodedLength
end

