-- ==== Sys2Proof/Tests/Slice0.lean ====
section
/-! SUPPORT. The model's own tests: expected results are those of 95_test_vectors.md or of the numbered rules, and for
every statement with hypotheses a state and operands that meet them. -/

open Sys2Proof Sys2Proof.Machine

namespace Sys2Proof.Tests

/-! ### The test configuration and small states -/

def digit1Glyph : Glyph := #v[4, 6, 4, 4, 4, 4, 14]
def digit7Glyph : Glyph := #v[31, 16, 8, 4, 4, 4, 4]
def letterAGlyph : Glyph := #v[14, 17, 17, 31, 17, 17, 17]
def letterHGlyph : Glyph := #v[17, 17, 17, 31, 17, 17, 17]
def letterIGlyph : Glyph := #v[14, 4, 4, 4, 4, 4, 14]
def letterZGlyph : Glyph := #v[31, 16, 8, 4, 2, 1, 31]

/-- The test parameters of 95_test_vectors.md with its test font TF (glyphs it does not list are blank). -/
def testConfig : Config :=
  { nmaxPred := 7
    fontDigit := ((Vector.replicate 10 noGlyph).set 1 digit1Glyph).set 7 digit7Glyph
    fontLetter :=
      ((((Vector.replicate 26 noGlyph).set 0 letterAGlyph).set 7 letterHGlyph).set 8 letterIGlyph).set 25 letterZGlyph
    degRow0 := 0x0C
    degRow1 := 0x0C
    initIntensity := 0x8
    initShutdownFirst := 0x1 }

/-- Power-on with the test parameters. -/
def powerOn : State := { State.reset with cfg := testConfig }

/-- After a BEGIN for `n` devices, with a buffer and three devices on the wires. -/
def running (n : Byte) (buf : Memory) : State :=
  { powerOn with
    init := true, ndev := n, cs := true, driven := true, buf := buf, chain := List.replicate 3 Device.powerUp }

/-- A device of the chain is about to latch this frame. -/
def latching (n : Byte) (f : FrameWord) : State := (running n []).placeFrame f

/-- The eight rows of a device after a command that completed. -/
def rowsAfter (r : Result) (d : Nat) : List Byte :=
  match r with
  | .next t => if t.fault = none then (List.range 8).map (t.cell d) else []
  | _ => []

/-- The fault a command took. -/
def faultAfter (r : Result) : Option FaultRecord :=
  match r with
  | .next t => t.fault
  | _ => none

/-- A command did nothing at all: no fault, the same buffer and no event. -/
def ignoredFrom (s : State) (r : Result) : Bool :=
  match r with
  | .next t => t.fault = none && t.buf = s.buf && t.trace = s.trace && t.ndev = s.ndev
  | _ => false

/-- The events a command added to an empty TRACE. -/
def eventsAfter (r : Result) : List WireEvent :=
  match r with
  | .next t => t.trace
  | _ => []

/-- A device of the chain after a step. -/
def deviceAfter (r : Result) (p : Nat) : Option Device :=
  match r with
  | .next t => t.chain[p]?
  | _ => none

/-- Bits written out, as events in send order. -/
def bitString (bs : List Nat) : List WireEvent := bs.map fun b => .bit (b == 1)

/-- One transaction of frames written out in bits. -/
def bitTransaction (frames : List (List Nat)) : List WireEvent :=
  [.csLow] ++ frames.flatMap bitString ++ [.csHigh]

/-! ### WellFormed: each check refuses an ill-formed term -/

theorem test_wf_refuses_broadcast_to_D : (Instr.busBroadcast 0xD 0x00).wf = false := by decide
theorem test_wf_refuses_targeted_to_E : (Instr.busTargeted 0 0xE 0x00).wf = false := by decide
theorem test_wf_accepts_broadcast_to_F : (Instr.busBroadcast 0xF 0x00).wf = true := by decide
theorem test_wf_refuses_overlong_text (c : Byte) : (Instr.renderText (List.replicate 65536 c)).wf = false := by
  rw [Instr.wf, List.length_replicate]
  rfl
theorem test_wf_accepts_longest_text (c : Byte) : (Instr.renderText (List.replicate 65535 c)).wf = true := by
  rw [Instr.wf, List.length_replicate]
  rfl

/-! ### Decoding: a word written out from the encoding tables for every constructor -/

theorem test_decode_BEGIN : decode [0x00, 0x80, 0x00, 0x00] = .ok (.begin 8, []) := by decide
theorem test_decode_BUS_BROADCAST : decode [0x10, 0x0A, 0x00, 0x0F] = .ok (.busBroadcast 0xA 0x0F, []) := by decide
theorem test_decode_BUS_TARGETED : decode [0x21, 0x2C, 0x00, 0x01] = .ok (.busTargeted 0x12 0xC 0x01, []) := by decide
theorem test_decode_RENDER_DIGIT : decode [0x30, 0x50, 0xFF, 0xFE] = .ok (.renderDigit 5 0xFFFE, []) := by decide
theorem test_decode_RENDER_LETTER : decode [0x40, 0x30, 0x00, 0x7A] = .ok (.renderLetter 3 0x7A, []) := by decide
theorem test_decode_RENDER_TEXT : decode [0x50, 0x00, 0x00, 0x02, 0x48, 0x49] = .ok (.renderText [0x48, 0x49], []) := by decide
theorem test_decode_CLEAR_DEVICE : decode [0x6F, 0xF0, 0x00, 0x00] = .ok (.clearDevice 0xFF, []) := by decide
theorem test_decode_SET_COLON : decode [0x70, 0x10, 0x00, 0x01] = .ok (.setColon 1 true, []) := by decide
theorem test_decode_SET_DECIMAL : decode [0x80, 0x20, 0x00, 0x00] = .ok (.setDecimal 2 false, []) := by decide
theorem test_decode_SET_DEGREE : decode [0x90, 0x40, 0x00, 0x01] = .ok (.setDegree 4 true, []) := by decide
theorem test_decode_CLEAR_ALL_INDICATORS : decode [0xA0, 0x00, 0x00, 0x00] = .ok (.clearAllIndicators, []) := by decide
theorem test_decode_REFRESH : decode [0xB0, 0x00, 0x00, 0x00] = .ok (.refresh, []) := by decide
theorem test_decode_CLEAR_DISPLAY : decode [0xC0, 0x00, 0x00, 0x00] = .ok (.clearDisplay, []) := by decide
theorem test_decode_NOOP : decodeFrame 0b0000000001011010 = .ok (.noop 0x5A) := by decide
theorem test_decode_DIGIT0 : decodeFrame 0b0000000110000001 = .ok (.digit0 0x81) := by decide
theorem test_decode_DIGIT1 : decodeFrame 0b0000001010000010 = .ok (.digit1 0x82) := by decide
theorem test_decode_DIGIT2 : decodeFrame 0b0000001110000011 = .ok (.digit2 0x83) := by decide
theorem test_decode_DIGIT3 : decodeFrame 0b0000010010000100 = .ok (.digit3 0x84) := by decide
theorem test_decode_DIGIT4 : decodeFrame 0b0000010110000101 = .ok (.digit4 0x85) := by decide
theorem test_decode_DIGIT5 : decodeFrame 0b0000011010000110 = .ok (.digit5 0x86) := by decide
theorem test_decode_DIGIT6 : decodeFrame 0b0000011110000111 = .ok (.digit6 0x87) := by decide
theorem test_decode_DIGIT7 : decodeFrame 0b0000100010001000 = .ok (.digit7 0x88) := by decide
theorem test_decode_DECODE_MODE : decodeFrame 0b0000100111111111 = .ok (.decodeMode 0xFF) := by decide
theorem test_decode_INTENSITY : decodeFrame 0b0000101000001111 = .ok (.intensity 0x0F) := by decide
theorem test_decode_SCAN_LIMIT : decodeFrame 0b0000101100000111 = .ok (.scanLimit 0x07) := by decide
theorem test_decode_SHUTDOWN : decodeFrame 0b0000110000000001 = .ok (.shutdown 0x01) := by decide
theorem test_decode_DISPLAY_TEST : decodeFrame 0b0000111100000001 = .ok (.displayTest 0x01) := by decide

/-! ### Bus commands (95_test_vectors.md 2.1, 2.2) -/

theorem test_BUS_BROADCAST_VB1 :
    eventsAfter (exec (.busBroadcast 0xC 0x01) (running 2 [])) =
      bitTransaction [[0,0,0,0,1,1,0,0,0,0,0,0,0,0,0,1], [0,0,0,0,1,1,0,0,0,0,0,0,0,0,0,1]] := by decide +kernel
theorem test_BUS_BROADCAST_VB6 :
    faultAfter (exec (.busBroadcast 0xD 0x00) (running 2 [])) = some (.illegalCommand 0x100D0000) := by decide +kernel
theorem test_BUS_TARGETED_VB2_VO1 :
    eventsAfter (exec (.busTargeted 0 0x1 0xFF) (running 3 [])) =
        bitTransaction [[0,0,0,0,0,0,0,0,0,0,0,0,0,0,0,0], [0,0,0,0,0,0,0,0,0,0,0,0,0,0,0,0],
          [0,0,0,0,0,0,0,1,1,1,1,1,1,1,1,1]] ∧
      deviceAfter (exec (.busTargeted 0 0x1 0xFF) (running 3 [])) 0 =
        some { Device.powerUp with sr := 0x01FF, digits := #v[0xFF, 0, 0, 0, 0, 0, 0, 0] } ∧
      deviceAfter (exec (.busTargeted 0 0x1 0xFF) (running 3 [])) 1 = some Device.powerUp := by decide +kernel
theorem test_BUS_TARGETED_VB4 :
    faultAfter (exec (.busTargeted 2 0x1 0xFF) (running 2 [])) = some (.badTarget 2) ∧
      eventsAfter (exec (.busTargeted 2 0x1 0xFF) (running 2 [])) = [] := by decide +kernel

/-! ### Glyphs and text (95_test_vectors.md 2.3, 2.4) -/

theorem test_RENDER_DIGIT_VG1 :
    rowsAfter (exec (.renderDigit 0 0x0001) (running 1 [(7, 0x82)])) 0 =
      [0x10, 0x18, 0x10, 0x10, 0x10, 0x10, 0x38, 0x00] := by decide +kernel
theorem test_RENDER_DIGIT_VG3_to_VG6 :
    ignoredFrom (running 1 []) (exec (.renderDigit 0 0x000A) (running 1 [])) = true ∧
      ignoredFrom (running 1 []) (exec (.renderDigit 0 0xFFFF) (running 1 [])) = true ∧
      ignoredFrom (running 1 []) (exec (.renderDigit 0 0x8000) (running 1 [])) = true ∧
      ignoredFrom (running 2 []) (exec (.renderDigit 2 0x0003) (running 2 [])) = true := by decide +kernel
theorem test_RENDER_LETTER_VG7_VG9 :
    rowsAfter (exec (.renderLetter 1 0x61) (running 2 [])) 1 = [0x38, 0x44, 0x44, 0x7C, 0x44, 0x44, 0x44, 0x00] ∧
      rowsAfter (exec (.renderLetter 0 0x7A) (running 1 [])) 0 = [0x7C, 0x40, 0x20, 0x10, 0x08, 0x04, 0x7C, 0x00] := by
  decide +kernel
theorem test_RENDER_LETTER_VG10_to_VG13 :
    ignoredFrom (running 1 []) (exec (.renderLetter 0 0x40) (running 1 [])) = true ∧
      ignoredFrom (running 1 []) (exec (.renderLetter 0 0x23) (running 1 [])) = true ∧
      ignoredFrom (running 1 []) (exec (.renderLetter 0 0x37) (running 1 [])) = true ∧
      ignoredFrom (running 1 []) (exec (.renderLetter 0 0xE1) (running 1 [])) = true := by decide +kernel
theorem test_RENDER_TEXT_VX1 :
    rowsAfter (exec (.renderText [0x41, 0x31, 0x20]) (running 3 [(16, 0xFF)])) 0 =
        [0x38, 0x44, 0x44, 0x7C, 0x44, 0x44, 0x44, 0x00] ∧
      rowsAfter (exec (.renderText [0x41, 0x31, 0x20]) (running 3 [(16, 0xFF)])) 1 =
        [0x10, 0x18, 0x10, 0x10, 0x10, 0x10, 0x38, 0x00] ∧
      rowsAfter (exec (.renderText [0x41, 0x31, 0x20]) (running 3 [(16, 0xFF)])) 2 = [0, 0, 0, 0, 0, 0, 0, 0] := by
  decide +kernel
theorem test_RENDER_TEXT_VX5 :
    rowsAfter (exec (.renderText [0x68, 0x00, 0x37, 0x7A]) (running 3 [(8, 0xFF)])) 0 =
        [0x44, 0x44, 0x44, 0x7C, 0x44, 0x44, 0x44, 0x00] ∧
      rowsAfter (exec (.renderText [0x68, 0x00, 0x37, 0x7A]) (running 3 [(8, 0xFF)])) 1 = [0, 0, 0, 0, 0, 0, 0, 0] := by
  decide +kernel

/-! ### Clear and indicators (95_test_vectors.md 2.5) -/

theorem test_SET_COLON_VI1 : rowsAfter (exec (.setColon 0 true) (running 1 [(7, 0x80)])) 0 = [0, 0, 0, 0, 0, 0, 0, 0x82] := by
  decide +kernel
theorem test_SET_COLON_VI6 : ignoredFrom (running 2 []) (exec (.setColon 5 true) (running 2 [])) = true := by
  decide +kernel
theorem test_SET_DECIMAL_VI2 : rowsAfter (exec (.setDecimal 0 true) (running 1 [(7, 0x02)])) 0 = [0, 0, 0, 0, 0, 0, 0, 0x82] := by
  decide +kernel
theorem test_SET_DECIMAL_VI3 : rowsAfter (exec (.setDecimal 0 false) (running 1 [(7, 0x82)])) 0 = [0, 0, 0, 0, 0, 0, 0, 0x02] := by
  decide +kernel
/-- The buffer of device 0 showing digit 1. -/
def digit1Buffer : Memory := [(0, 0x10), (1, 0x18), (2, 0x10), (3, 0x10), (4, 0x10), (5, 0x10), (6, 0x38)]
theorem test_SET_DEGREE_VI7 :
    rowsAfter (exec (.setDegree 0 true) (running 1 digit1Buffer)) 0 = [0x0C, 0x0C, 0x10, 0x10, 0x10, 0x10, 0x38, 0x00] := by
  decide +kernel
theorem test_SET_DEGREE_off :
    rowsAfter (exec (.setDegree 0 false) (running 1 digit1Buffer)) 0 = [0x00, 0x00, 0x10, 0x10, 0x10, 0x10, 0x38, 0x00] := by
  decide +kernel
theorem test_CLEAR_ALL_INDICATORS_VI9 :
    rowsAfter (exec .clearAllIndicators (running 2 [(7, 0x82), (8, 0x0C), (15, 0x80)])) 0 = [0, 0, 0, 0, 0, 0, 0, 0] ∧
      rowsAfter (exec .clearAllIndicators (running 2 [(7, 0x82), (8, 0x0C), (15, 0x80)])) 1 =
        [0x0C, 0, 0, 0, 0, 0, 0, 0] := by decide +kernel
theorem test_CLEAR_DEVICE_VI10 : rowsAfter (exec (.clearDevice 0) (running 1 digit1Buffer)) 0 = [0, 0, 0, 0, 0, 0, 0, 0] := by
  decide +kernel
theorem test_CLEAR_DEVICE_VI11 : ignoredFrom (running 1 []) (exec (.clearDevice 1) (running 1 [])) = true := by
  decide +kernel

/-! ### Refresh, clear display, begin (95_test_vectors.md 2.6, 2.7) -/

theorem test_REFRESH_VR1 :
    (eventsAfter (exec .refresh (running 2 [(0, 0x1C), (8, 0x44)]))).take 34 =
        bitTransaction [[0,0,0,0,0,0,0,1,0,1,0,0,0,1,0,0], [0,0,0,0,0,0,0,1,0,0,0,1,1,1,0,0]] ∧
      (eventsAfter (exec .refresh (running 2 [(0, 0x1C), (8, 0x44)]))).count .csHigh = 8 := by decide +kernel
theorem test_REFRESH_reaches_devices :
    (deviceAfter (exec .refresh (running 2 [(0, 0x1C), (8, 0x44), (15, 0x82)])) 1).map (·.digits) =
      some #v[0x44, 0, 0, 0, 0, 0, 0, 0x82] := by decide +kernel
theorem test_CLEAR_DISPLAY_VR2 :
    eventsAfter (exec .clearDisplay (running 1 digit1Buffer)) =
      bitTransaction [[0,0,0,0,0,0,0,1,0,0,0,0,0,0,0,0]] ++ bitTransaction [[0,0,0,0,0,0,1,0,0,0,0,0,0,0,0,0]] ++
      bitTransaction [[0,0,0,0,0,0,1,1,0,0,0,0,0,0,0,0]] ++ bitTransaction [[0,0,0,0,0,1,0,0,0,0,0,0,0,0,0,0]] ++
      bitTransaction [[0,0,0,0,0,1,0,1,0,0,0,0,0,0,0,0]] ++ bitTransaction [[0,0,0,0,0,1,1,0,0,0,0,0,0,0,0,0]] ++
      bitTransaction [[0,0,0,0,0,1,1,1,0,0,0,0,0,0,0,0]] ++ bitTransaction [[0,0,0,0,1,0,0,0,0,0,0,0,0,0,0,0]] := by
  decide +kernel
theorem test_CLEAR_DISPLAY_buffer :
    rowsAfter (exec .clearDisplay (running 1 digit1Buffer)) 0 = [0, 0, 0, 0, 0, 0, 0, 0] := by decide +kernel
theorem test_BEGIN_VR3 :
    eventsAfter (exec (.begin 1) powerOn) =
      bitTransaction [[0,0,0,0,1,1,0,0,0,0,0,0,0,0,0,1]] ++ bitTransaction [[0,0,0,0,1,1,1,1,0,0,0,0,0,0,0,0]] ++
      bitTransaction [[0,0,0,0,1,0,0,1,0,0,0,0,0,0,0,0]] ++ bitTransaction [[0,0,0,0,1,0,1,1,0,0,0,0,0,1,1,1]] ++
      bitTransaction [[0,0,0,0,1,0,1,0,0,0,0,0,1,0,0,0]] ++ bitTransaction [[0,0,0,0,1,1,0,0,0,0,0,0,0,0,0,1]] := by
  decide +kernel
theorem test_BEGIN_VR4_VR5 :
    faultAfter (exec (.begin 0) powerOn) = some (.badDeviceCount 0) ∧
      faultAfter (exec (.begin 9) powerOn) = some (.badDeviceCount 9) := by decide +kernel
theorem test_REFRESH_VR6 : faultAfter (exec .refresh powerOn) = some (.notInitialized 0xB) := by decide +kernel
theorem test_faulted_VR8 :
    step { powerOn with fault := some (.notInitialized 0xB), port := [0x00, 0x10, 0x00, 0x00] } = .fault .quiescent := rfl

/-! ### The fourteen frame kinds (43_device_frames.md) -/

theorem test_frame_NOOP : deviceAfter (step (latching 2 0x005A)) 0 = some { Device.powerUp with sr := 0x005A } := by decide +kernel
theorem test_frame_DIGIT0 :
    deviceAfter (step (latching 2 0x0181)) 0 = some { Device.powerUp with sr := 0x0181, digits := #v[0x81, 0, 0, 0, 0, 0, 0, 0] } := by
  decide +kernel
theorem test_frame_DIGIT1 :
    deviceAfter (step (latching 2 0x0282)) 0 = some { Device.powerUp with sr := 0x0282, digits := #v[0, 0x82, 0, 0, 0, 0, 0, 0] } := by
  decide +kernel
theorem test_frame_DIGIT2 :
    deviceAfter (step (latching 2 0x0383)) 0 = some { Device.powerUp with sr := 0x0383, digits := #v[0, 0, 0x83, 0, 0, 0, 0, 0] } := by
  decide +kernel
theorem test_frame_DIGIT3 :
    deviceAfter (step (latching 2 0x0484)) 0 = some { Device.powerUp with sr := 0x0484, digits := #v[0, 0, 0, 0x84, 0, 0, 0, 0] } := by
  decide +kernel
theorem test_frame_DIGIT4 :
    deviceAfter (step (latching 2 0x0585)) 0 = some { Device.powerUp with sr := 0x0585, digits := #v[0, 0, 0, 0, 0x85, 0, 0, 0] } := by
  decide +kernel
theorem test_frame_DIGIT5 :
    deviceAfter (step (latching 2 0x0686)) 0 = some { Device.powerUp with sr := 0x0686, digits := #v[0, 0, 0, 0, 0, 0x86, 0, 0] } := by
  decide +kernel
theorem test_frame_DIGIT6 :
    deviceAfter (step (latching 2 0x0787)) 0 = some { Device.powerUp with sr := 0x0787, digits := #v[0, 0, 0, 0, 0, 0, 0x87, 0] } := by
  decide +kernel
theorem test_frame_DIGIT7 :
    deviceAfter (step (latching 2 0x0888)) 0 = some { Device.powerUp with sr := 0x0888, digits := #v[0, 0, 0, 0, 0, 0, 0, 0x88] } := by
  decide +kernel
theorem test_frame_DECODE_MODE :
    deviceAfter (step (latching 2 0x09A5)) 0 = some { Device.powerUp with sr := 0x09A5, decode := 0xA5 } := by decide +kernel
theorem test_frame_INTENSITY :
    deviceAfter (step (latching 2 0x0AF8)) 0 = some { Device.powerUp with sr := 0x0AF8, intensity := 8 } := by decide +kernel
theorem test_frame_SCAN_LIMIT :
    deviceAfter (step (latching 2 0x0B0F)) 0 = some { Device.powerUp with sr := 0x0B0F, scanLimit := 7 } := by decide +kernel
theorem test_frame_SHUTDOWN :
    deviceAfter (step (latching 2 0x0C03)) 0 = some { Device.powerUp with sr := 0x0C03, shutdown := 1 } := by decide +kernel
theorem test_frame_DISPLAY_TEST :
    deviceAfter (step (latching 2 0x0F81)) 0 = some { Device.powerUp with sr := 0x0F81, test := 1 } := by decide +kernel
/-- `SR[15:12]` is ignored at the latch (R173). -/
theorem test_frame_nibble_ignored :
    deviceAfter (step (latching 2 0xF0C1)) 0 = some { Device.powerUp with sr := 0xF0C1 } := by decide +kernel

/-! ### Words the block refuses (R81-R83) -/

theorem test_illegal_word_VB8 :
    decode [0x11, 0x0C, 0x00, 0x01] = .error (.mustBeZero 0x110C0001) := by decide
theorem test_illegal_word_VG14 : decode [0x40, 0x00, 0x01, 0x41] = .error (.mustBeZero 0x40000141) := by decide
theorem test_illegal_word_VI5 : decode [0x70, 0x00, 0x00, 0x02] = .error (.mustBeZero 0x70000002) := by decide
theorem test_illegal_word_VR7 : decode [0xD0, 0x00, 0x00, 0x00] = .error (.reservedOp 0xD0000000) := by decide
theorem test_illegal_word_VB6 : decode [0x10, 0x0D, 0x00, 0x00] = .error (.reservedRegister 0x100D0000) := by decide
/-- The payload belongs to every word with `op` 0x5, a nonzero `dev` field or not (R80). -/
theorem test_illegal_text_payload :
    decode [0x50, 0x10, 0x00, 0x02, 0x41] = .error .incompletePayload ∧
      fetchCommand [0x50, 0x10, 0x00, 0x02, 0x41, 0x42, 0xB0] = .illegal 0x50100002 [0xB0] := by decide
theorem test_frame_D_has_no_kind : decodeFrame 0x0D00 = .error (.frameAddress 0x0D00) := by decide
theorem test_frame_nibble : decodeFrame 0x1100 = .error (.frameNibble 0x1100) := by decide
theorem test_table_word : decodeTableWord 32 0x50000003 = some (.renderText [0, 0, 0]) := by decide
theorem test_fetch_word_runs_it :
    faultAfter (step (powerOn.withFetchWord 32 0x00000000)) = some (.badDeviceCount 0) := by decide +kernel

/-! ### Witnesses: hypotheses that are met -/

/-- A running block with bytes on its port. -/
def offered (n : Byte) (port : List Byte) : State := { running n [] with port := port }

theorem running_ready (n : Byte) (buf : Memory) : (running n buf).Ready := ⟨rfl, rfl⟩

theorem witness_StepRunsDecodedCommand :
    (offered 1 [0x30, 0x00, 0x00, 0x01, 0xB0]).TakesCommand ∧
      decode (offered 1 [0x30, 0x00, 0x00, 0x01, 0xB0]).port = .ok (.renderDigit 0 1, [0xB0]) :=
  ⟨⟨rfl, rfl⟩, by decide⟩

theorem witness_StepRunsLatchedFrame :
    (latching 2 0xF0C1).latchPending = true ∧
      (latching 2 0xF0C1).chain[(latching 2 0xF0C1).latchPos]? = some { Device.powerUp with sr := 0xF0C1 } ∧
      (0xF0C1 : FrameWord) = (0xF#4 ++ (0x0 : Addr)) ++ (0xC1 : Byte) ∧
      frameFields (.noop 0xC1) = some { addr := 0x0, data := 0xC1 } :=
  ⟨rfl, rfl, by decide, rfl⟩

theorem witness_UnspecifiedLatchTouchesOneDevice :
    ((latching 2 0x0D00).latchPending = true ∧
      (latching 2 0x0D00).chain[(latching 2 0x0D00).latchPos]? = some { Device.powerUp with sr := 0x0D00 } ∧
      frameAddr 0x0D00 = 0xD) ∧
    ((latching 2 0x0EFF).latchPending = true ∧
      (latching 2 0x0EFF).chain[(latching 2 0x0EFF).latchPos]? = some { Device.powerUp with sr := 0x0EFF } ∧
      frameAddr 0x0EFF = 0xE) :=
  ⟨⟨rfl, rfl, by decide⟩, rfl, rfl, by decide⟩

theorem witness_IncompleteCommandWaits :
    ((offered 1 [0x50, 0x00, 0x00]).TakesCommand ∧ (offered 1 [0x50, 0x00, 0x00]).port.length < 4) ∧
    ((offered 1 [0x50, 0x00, 0x00, 0x02, 0x41]).TakesCommand ∧ [(0x41 : Byte)].length < (2 : BitVec 16).toNat ∧
      (offered 1 [0x50, 0x00, 0x00, 0x02, 0x41]).port =
        wordBytes ((0x5#4 ++ (0x00 : Byte)) ++ ((0x0 : Addr) ++ (2 : BitVec 16))) ++ [0x41]) ∧
    ((offered 1 [0x51, 0x2F, 0x00, 0x01]).TakesCommand ∧ ([] : List Byte).length < (1 : BitVec 16).toNat ∧
      (offered 1 [0x51, 0x2F, 0x00, 0x01]).port =
        wordBytes ((0x5#4 ++ (0x12 : Byte)) ++ ((0xF : Addr) ++ (1 : BitVec 16))) ++ []) :=
  ⟨⟨⟨rfl, rfl⟩, by decide⟩, ⟨⟨rfl, rfl⟩, by decide, by decide⟩, ⟨rfl, rfl⟩, by decide, by decide⟩

theorem witness_IllegalWordsRaise :
    ((offered 1 [0xD0, 0x00, 0x00, 0x00]).TakesCommand ∧ ([] : List Byte).length = bytesAfterWord 0xD0000000 ∧
      (offered 1 [0xD0, 0x00, 0x00, 0x00]).port = wordBytes 0xD0000000 ++ [] ++ [] ∧ ¬ LegalWord 0xD0000000) ∧
    ((offered 1 [0x50, 0x10, 0x00, 0x01, 0x41, 0xB0]).TakesCommand ∧
      [(0x41 : Byte)].length = bytesAfterWord 0x50100001 ∧
      (offered 1 [0x50, 0x10, 0x00, 0x01, 0x41, 0xB0]).port = wordBytes 0x50100001 ++ [0x41] ++ [0xB0] ∧
      ¬ LegalWord 0x50100001) ∧
    (¬ LegalWord 0x70000002 ∧ ¬ LegalWord 0x100D0000 ∧ ¬ LegalWord 0x200E0000) ∧
    ((offered 1 [0x30, 0x00, 0x00, 0x01]).TakesCommand ∧
      (offered 1 [0x30, 0x00, 0x00, 0x01]).port = wordBytes 0x30000001 ++ [] ∧ LegalWord 0x30000001 ∧
      ∃ t, step (offered 1 [0x30, 0x00, 0x00, 0x01]) = .next t) := by
  refine ⟨⟨⟨rfl, rfl⟩, by decide, by decide, ?_⟩, ⟨⟨rfl, rfl⟩, by decide, by decide, ?_⟩, ⟨?_, ?_, ?_⟩, ⟨rfl, rfl⟩,
    by decide, ?_, _, rfl⟩ <;> unfold LegalWord NamesReservedRegister <;> decide

theorem witness_DecodeEncodeAgree :
    ((Instr.renderText [0x41]).wf = true ∧ frameFields (.renderText [0x41]) = none) ∧
      ((Instr.digit7 0x82).wf = true ∧ frameFields (.digit7 0x82) = some { addr := 0x8, data := 0x82 }) :=
  ⟨⟨rfl, rfl⟩, rfl, rfl⟩

theorem witness_AcceptedBitsReencode :
    decode [0x20, 0x10, 0x00, 0x81, 0xFF] = .ok (.busTargeted 1 0x0 0x81, [0xFF]) ∧
      decodeFrame 0x0F01 = .ok (.displayTest 0x01) := by decide

theorem witness_UninitialisedCommandsRaise :
    Instr.refresh.wf = true ∧ commandFields .refresh = some { op := 0xB, dev := 0, reg := 0, arg := 0 } ∧
      (0xB : BitVec 4) ≠ 0x0 ∧ powerOn.fault = none ∧ powerOn.init = false :=
  ⟨rfl, rfl, by decide, rfl, rfl⟩

/-- A block whose first command was REFRESH (vector VR6). -/
def faulted : State := { powerOn with fault := some (.notInitialized 0xB) }

theorem witness_FaultsArePreciseFinalAndSticky :
    (powerOn.fault = none ∧ exec .refresh powerOn = .next faulted ∧ faulted.fault ≠ none) ∧
      (faulted.latchPending = false ∧ faulted.fault ≠ none) ∧
      ((commandFields (.begin 1)).isSome = true ∧ faulted.fault ≠ none) ∧
      ∃ t, step (faulted.placeFrame 0x0C01) = .next t ∧ (faulted.placeFrame 0x0C01).fault ≠ none :=
  ⟨⟨rfl, rfl, by decide⟩, ⟨rfl, by decide⟩, ⟨rfl, by decide⟩, _, rfl, by decide⟩

/-- A block whose INIT is 0, with bytes on its port. -/
def uninitialised (port : List Byte) : State := { powerOn with port := port }

theorem witness_FaultPriority :
    (((uninitialised [0x2F, 0xFD, 0x00, 0x01, 0xB0]).TakesCommand ∧ ((0xD : Addr) = 0xD ∨ (0xD : Addr) = 0xE) ∧
        (uninitialised [0x2F, 0xFD, 0x00, 0x01, 0xB0]).port =
          wordBytes ((0x2#4 ++ (0xFF : Byte)) ++ ((0xD : Addr) ++ (0#8 ++ (0x01 : Byte)))) ++ [0xB0]) ∧
      (uninitialised [0x2F, 0xFD, 0x00, 0x01, 0xB0]).init = false ∧
      ((uninitialised [0x20, 0x0E, 0x00, 0x00]).TakesCommand ∧ ((0xE : Addr) = 0xD ∨ (0xE : Addr) = 0xE) ∧
        (uninitialised [0x20, 0x0E, 0x00, 0x00]).port =
          wordBytes ((0x2#4 ++ (0x00 : Byte)) ++ ((0xE : Addr) ++ (0#8 ++ (0x00 : Byte)))) ++ [])) ∧
      (powerOn.fault = none ∧ (0xC : Addr) ≠ 0xD ∧ (0xC : Addr) ≠ 0xE ∧ powerOn.init = false) ∧
      ((running 2 []).Ready ∧ (0xF : Addr) ≠ 0xD ∧ (0xF : Addr) ≠ 0xE ∧ (running 2 []).count ≤ (2 : Byte).toNat) ∧
      (powerOn.fault = none ∧ powerOn.cfg.nmax < (9 : Byte).toNat) ∧
      (powerOn.fault = none ∧ (0 : Byte) = 0) ∧
      (powerOn.fault = none ∧ powerOn.init = false ∧ powerOn.count ≤ (0 : Byte).toNat) :=
  ⟨⟨⟨⟨rfl, rfl⟩, by decide, by decide⟩, rfl, ⟨rfl, rfl⟩, by decide, by decide⟩, ⟨rfl, by decide, by decide, rfl⟩,
    ⟨⟨rfl, rfl⟩, by decide, by decide, by decide⟩, ⟨rfl, by decide⟩, ⟨rfl, rfl⟩, rfl, rfl, by decide⟩

theorem witness_RenderDigitWritesGlyph :
    (running 2 []).Ready ∧ (1 : Byte).toNat < (running 2 []).count ∧ (0x0000 : BitVec 16) = BitVec.ofNat 16 0 ∧
      (0x0009 : BitVec 16) = BitVec.ofNat 16 9 ∧ (0xFFFF : BitVec 16).toInt < 0 ∧ 9 < (0x000A : BitVec 16).toInt ∧
      (running 2 []).count ≤ (2 : Byte).toNat :=
  ⟨⟨rfl, rfl⟩, by decide, by decide, by decide, by decide, by decide, by decide⟩

theorem witness_RenderLetterWritesGlyph :
    (running 2 []).Ready ∧ (1 : Byte).toNat < (running 2 []).count ∧ (0x41 : Byte).toNat = 0x41 + 0 ∧
      (0x5A : Byte).toNat = 0x41 + 25 ∧ (0x61 : Byte).toNat = 0x61 + 0 ∧ (0x7A : Byte).toNat = 0x61 + 25 ∧
      (0x40 : Byte).toNat < 0x41 ∧ (0x5A < (0x5B : Byte).toNat ∧ (0x60 : Byte).toNat < 0x61) ∧
      0x7A < (0x7B : Byte).toNat ∧ (running 2 []).count ≤ (2 : Byte).toNat :=
  ⟨⟨rfl, rfl⟩, by decide, by decide, by decide, by decide, by decide, by decide, by decide, by decide, by decide⟩

theorem witness_CaseFoldEquivalence :
    (running 1 []).Ready ∧ (0x61 ≤ (0x61 : Byte).toNat ∧ (0x61 : Byte).toNat ≤ 0x7A) ∧
      (0x61 ≤ (0x7A : Byte).toNat ∧ (0x7A : Byte).toNat ≤ 0x7A) := ⟨⟨rfl, rfl⟩, by decide, by decide⟩

theorem witness_RenderTextOneCharPerDevice :
    (running 3 []).Ready ∧ [(0x68 : Byte), 0x00, 0x37, 0x7A].length < 65536 := ⟨⟨rfl, rfl⟩, by decide⟩

/-- Ready, and a device index below `N`: the hypotheses of ClearDeviceZeroes, IndicatorsChangeOneBit and
SetDegreeOverlaysTwoRows. -/
theorem witness_ClearDeviceZeroes : (running 2 digit1Buffer).Ready ∧ (1 : Byte).toNat < (running 2 digit1Buffer).count :=
  ⟨⟨rfl, rfl⟩, by decide⟩
theorem witness_IndicatorsChangeOneBit : (running 1 [(7, 0x80)]).Ready ∧ (0 : Byte).toNat < (running 1 [(7, 0x80)]).count :=
  ⟨⟨rfl, rfl⟩, by decide⟩
theorem witness_SetDegreeOverlaysTwoRows :
    (running 1 digit1Buffer).Ready ∧ (0 : Byte).toNat < (running 1 digit1Buffer).count := ⟨⟨rfl, rfl⟩, by decide⟩
theorem witness_ColonThenDecimalCombine :
    (running 1 [(7, 0x0C)]).Ready ∧ (running 1 [(7, 0x0C)]).CanonicalBuffer ∧
      (0 : Byte).toNat < (running 1 [(7, 0x0C)]).count := ⟨⟨rfl, rfl⟩, rfl, by decide⟩
theorem witness_DegreeAndGlyphExclude :
    (running 3 []).Ready ∧ (2 : Byte).toNat < (running 3 []).count ∧ 9 < 10 ∧
      (25 < 26 ∧ (0x5A : Byte).toNat = 0x41 + 25 ∧ (0x7A : Byte).toNat = 0x61 + 25) ∧
      [(0x41 : Byte), 0x31, 0x48].length < 65536 :=
  ⟨⟨rfl, rfl⟩, by decide, by decide, by decide, by decide⟩
theorem witness_ClearAllIndicatorsClearsRow7 : (running 2 [(7, 0x82)]).Ready := ⟨rfl, rfl⟩
theorem witness_InvalidIndexIsIgnored : (running 2 []).Ready ∧ (running 2 []).count ≤ (2 : Byte).toNat :=
  ⟨⟨rfl, rfl⟩, by decide⟩
theorem witness_BufferCommandsStayOffTheWire :
    bufferCommand .clearAllIndicators = true ∧ ∃ t, exec .clearAllIndicators (running 2 [(7, 0x82)]) = .next t :=
  ⟨rfl, _, rfl⟩

theorem witness_TransactionDeliversEachSlot :
    [({ addr := 0x1, data := 0x44 } : Frame), { addr := 0xF, data := 0x00 }].length = (running 2 []).count ∧
      ∀ f ∈ [({ addr := 0x1, data := 0x44 } : Frame), { addr := 0xF, data := 0x00 }], f.addr ≠ 0xD ∧ f.addr ≠ 0xE := by
  decide
theorem witness_BroadcastReachesEveryDevice : (running 2 []).Ready ∧ (0xC : Addr) ≠ 0xD ∧ (0xF : Addr) ≠ 0xE :=
  ⟨⟨rfl, rfl⟩, by decide, by decide⟩
theorem witness_TargetedReachesOneDevice :
    (running 2 []).Ready ∧ (0x1 : Addr) ≠ 0xD ∧ (0x1 : Addr) ≠ 0xE ∧ (1 : Byte).toNat < (running 2 []).count :=
  ⟨⟨rfl, rfl⟩, by decide, by decide, by decide⟩
theorem witness_RefreshPushesTheBuffer : (running 2 [(0, 0x1C), (8, 0x44)]).Ready := ⟨rfl, rfl⟩
theorem witness_RefreshGoesRowByRow : 8 ≤ 8 ∧ 0 ≤ 8 := by decide
theorem witness_RefreshKeepsBlockState :
    (running 2 [(0, 0x1C)]).Ready ∧ ∃ t, exec .refresh (running 2 [(0, 0x1C)]) = .next t := ⟨⟨rfl, rfl⟩, _, rfl⟩
theorem witness_RefreshIsIdempotent : (running 3 [(0, 0x1C)]).Ready := ⟨rfl, rfl⟩
theorem witness_ClearDisplayClearsAndFlushes : (running 1 digit1Buffer).Ready := ⟨rfl, rfl⟩
theorem witness_BeginConfiguresTheChain :
    powerOn.fault = none ∧ 1 ≤ (1 : Byte).toNat ∧ (8 : Byte).toNat ≤ powerOn.cfg.nmax := ⟨rfl, by decide, by decide⟩
theorem witness_BeginThenRefreshShowsTheBuffer :
    powerOn.fault = none ∧ powerOn.ChainListed ∧ 1 ≤ (8 : Byte).toNat ∧ (8 : Byte).toNat ≤ powerOn.cfg.nmax :=
  ⟨rfl, ⟨List.length_replicate, fun h => absurd h (by decide)⟩, by decide, by decide⟩
theorem witness_EventCountsPerCommand :
    ((commandFields .refresh).isSome = true ∧ (running 2 []).fault = none ∧
      faultAfter (exec .refresh (running 2 [])) = none ∧ ∃ t, exec .refresh (running 2 []) = .next t) ∧
    ((commandFields (.begin 0)).isSome = true ∧ powerOn.fault = none ∧
      faultAfter (exec (.begin 0) powerOn) ≠ none ∧ ∃ t, exec (.begin 0) powerOn = .next t) :=
  ⟨⟨rfl, rfl, by decide +kernel, _, rfl⟩, rfl, rfl, by decide +kernel, _, rfl⟩

theorem witness_DevicesApplyTheFrameRules :
    frameFields (.intensity 0xF8) = some { addr := 0xA, data := 0xF8 } ∧
      ({ Device.powerUp with sr := 0x3AF8 } : Device).sr = (0x3#4 ++ (0xA : Addr)) ++ (0xF8 : Byte) := ⟨rfl, by decide⟩
theorem witness_DigitFramesWriteOneRow :
    ((Instr.digit7 0x82, (7 : Fin 8)) ∈
      [(Instr.digit0 0x82, (0 : Fin 8)), (.digit1 0x82, 1), (.digit2 0x82, 2), (.digit3 0x82, 3), (.digit4 0x82, 4),
        (.digit5 0x82, 5), (.digit6 0x82, 6), (.digit7 0x82, 7)]) := by decide
theorem witness_DisplayedImageFollowsRegisters :
    Device.shown { Device.powerUp with test := 1 } 0 = .allLit ∧ Device.shown Device.powerUp 7 = .dark ∧
      Device.shown { Device.powerUp with shutdown := 1, scanLimit := 7, digits := #v[0, 0, 0, 0, 0, 0, 0, 0x82] } 7 =
        .pattern 0x82 ∧
      Device.shown { Device.powerUp with shutdown := 1 } 1 = .unspecified := by decide

theorem witness_CommandsNeverReadTheChain : (commandFields .refresh).isSome = true := rfl
theorem witness_OnlyBeginWritesCountAndInit :
    ((∀ n, Instr.refresh ≠ .begin n) ∧ ∃ t, exec .refresh (running 2 []) = .next t) ∧
      ((offered 1 [0xB0, 0x00, 0x00, 0x00]).init = true ∧ ∃ t, step (offered 1 [0xB0, 0x00, 0x00, 0x00]) = .next t) :=
  ⟨⟨fun _ => by simp, _, rfl⟩, rfl, _, rfl⟩
/-- A step that answers a next state: the hypothesis of ParametersAreNeverWritten and TraceOnlyGrows. -/
theorem witness_ParametersAreNeverWritten : ∃ t, step (offered 1 [0xB0, 0x00, 0x00, 0x00]) = .next t := ⟨_, rfl⟩
theorem witness_TraceOnlyGrows : ∃ t, step (offered 1 [0xB0, 0x00, 0x00, 0x00]) = .next t := ⟨_, rfl⟩
theorem witness_MemoryReadsWhatWasWritten :
    Memory.wf [(0, 0x1C), (8, 0x44)] = true ∧ (∀ a, Memory.read [(0, 0x1C), (8, 0x44)] a = Memory.read [(0, 0x1C), (8, 0x44)] a) :=
  ⟨by decide, fun _ => rfl⟩

/-- A running block of one device, all of its positions listed, with CLEAR_DISPLAY on its port: it meets every
invariant, and it steps. -/
def sound : State :=
  { powerOn with
    init := true, ndev := 1, cs := true, driven := true, buf := [(2, 0x38), (7, 0x82)], port := [0xC0, 0x00, 0x00, 0x00] }

theorem witness_steps : ∃ t, step sound = .next t := ⟨_, rfl⟩
theorem witness_StepKeepsBufferCanonical : sound.CanonicalBuffer := rfl
theorem witness_StepKeepsControl : sound.Controlled ∧ sound.BufferInside := by
  refine ⟨⟨rfl, fun _ => ⟨by decide, by decide, rfl, rfl⟩⟩, ?_⟩
  unfold State.BufferInside
  decide
theorem witness_StepKeepsRowLayout : sound.RowLayout := by
  intro _ d hd
  have h1 : sound.count = 1 := by decide
  obtain rfl : d = 0 := by omega
  refine ⟨fun r h2 h6 => ?_, by decide⟩
  interval_cases r <;> decide
theorem witness_StepKeepsWholeTransactions : sound.WholeTransactions := ⟨[], rfl, by decide⟩
theorem witness_StepKeepsChainListed : sound.ChainListed := ⟨List.length_replicate, fun h => absurd h (by decide)⟩

end Sys2Proof.Tests
end

section
/-! PROOFS. Which instructions write the parameters, NDEV and INIT (R8, R9, R21, R22, R31): the three read off the
shapes of a next state. -/

namespace Sys2Proof.Machine

/-! ### What an instruction does to them -/

/-- No shape of a next state writes a parameter (R9, R31). -/
theorem Shape.cfg_eq {s t : State} {i : Instr} (h : Shape s i t) : t.cfg = s.cfg := by
  cases h with
  | raised _ _ _ ht | sends _ _ _ _ _ _ _ ht _ | began _ _ _ _ _ _ _ _ _ ht _ => rw [ht]
  | buffer _ _ ht => exact ht.cfg
  | latched _ _ ht => rw [ht, State.latchWith_cfg]

/-- A BEGIN with a legal count sets INIT; every other way to end in a next state keeps NDEV and INIT (R8, R21, R22). -/
theorem Shape.began_or_keeps {s t : State} {i : Instr} (h : Shape s i t) :
    ((∃ n, i = .begin n) ∧ t.init = true) ∨ (t.ndev = s.ndev ∧ t.init = s.init) := by
  cases h with
  | began n hi _ _ _ _ _ _ _ ht _ => exact .inl ⟨⟨n, hi⟩, by rw [ht]⟩
  | raised _ _ _ ht | buffer _ _ ht | sends _ _ _ _ _ _ _ ht _ => exact .inr ⟨by rw [ht], by rw [ht]⟩
  | latched _ _ ht => exact .inr ⟨by rw [ht, State.latchWith_ndev], by rw [ht, State.latchWith_init]⟩

/-! ### The obligations -/

/-- Settles O45: of the shapes of a next state only BEGIN's changes NDEV or INIT, and it sets INIT. -/
theorem onlyBeginWritesCountAndInit : Obligations.OnlyBeginWritesCountAndInit := by
  refine ⟨fun i s t hi h => ?_, fun s t hs h => ?_⟩
  · rcases (exec_shape h).began_or_keeps with ⟨⟨n, hn⟩, -⟩ | hkeeps
    · exact absurd hn (hi n)
    · exact hkeeps
  · rcases step_shape h with ⟨i, rest, he⟩ | ⟨ht, -⟩
    · rcases he.shape.began_or_keeps with ⟨-, hset⟩ | ⟨-, hkept⟩
      · exact hset
      · exact hkept.trans hs
    · rw [ht]
      exact hs

/-- Settles O46: neither an instruction nor a step that runs none writes a parameter. -/
theorem parametersAreNeverWritten : Obligations.ParametersAreNeverWritten := by
  intro s t h
  rcases step_shape h with ⟨i, rest, he⟩ | ⟨ht, -⟩
  · exact he.shape.cfg_eq
  · rw [ht]

end Sys2Proof.Machine
end

section
/-! PROOFS. The block's state from power-on (10_state.md): what it holds there, the layout of the rows (R24), the control
state (R21, R23, R25, R33) and the growing TRACE (R27), each kept by every step. -/

namespace Sys2Proof.Machine

/-! ### What every step keeps -/

/-- A property that neither FAULT, the port, a pending latch nor the chain can change is kept by every step if every
effect keeps it. -/
theorem step_keeps {P : State → Prop}
    (hside : ∀ (s : State) fault port latchPending chain draws, P s → P { s with
      fault := fault, port := port, latchPending := latchPending, chain := chain, draws := draws })
    (heffect : ∀ {s t : State} {i : Instr}, Effect s i t → P s → P t) {s t : State} (hs : P s)
    (h : step s = .next t) : P t := by
  rcases step_shape h with ⟨i, rest, he⟩ | ⟨ht, -⟩
  · exact heffect he (hside s s.fault rest s.latchPending s.chain s.draws hs)
  · rw [ht]
    exact hside s _ _ _ _ _ hs

/-! ### The control state and the store -/

/-- The control state stays legal: BEGIN sets a legal count, and a transaction to at least one device leaves chip-select
high and the clock low (R21, R25, R33). -/
theorem Shape.controlled {s t : State} {i : Instr} (h : Shape s i t) (hs : s.Controlled) : t.Controlled := by
  cases h with
  | raised _ _ _ ht | buffer _ _ ht | latched _ _ ht =>
    rw [ht]
    exact hs
  | sends _ hr _ _ _ _ hsends ht _ =>
    obtain ⟨hdriven, hlegal⟩ := hs
    obtain ⟨hlo, hhi, -, -⟩ := hlegal hr.2
    obtain ⟨-, hcs, hclk⟩ := hsends
    have hcount : t.count = s.count := by rw [ht]; rfl
    have hcfg : t.cfg = s.cfg := by rw [ht]
    rw [← hcount] at hlo hhi
    exact ⟨by rw [ht]; exact hdriven, fun _ => ⟨hlo, hcfg ▸ hhi, hcs, hclk hlo⟩⟩
  | began n _ _ hlo hhi _ _ _ hsends ht _ =>
    obtain ⟨-, hcs, hclk⟩ := hsends
    have hcount : t.count = n.toNat := by rw [ht]; rfl
    have hcfg : t.cfg = s.cfg := by rw [ht]
    rw [← hcount] at hlo hhi
    exact ⟨by rw [ht], fun _ => ⟨hlo, hcfg ▸ hhi, hcs, hclk hlo⟩⟩

/-- The buffer is written only on the way to a state with INIT set (R22). -/
theorem Shape.init_or_buf_eq {s t : State} {i : Instr} (h : Shape s i t) : t.init = true ∨ t.buf = s.buf := by
  cases h with
  | raised _ _ _ ht => exact .inr (by rw [ht])
  | latched _ _ ht => exact .inr (by rw [ht, State.latchWith_buf])
  | buffer _ hr ht | sends _ hr _ _ _ _ _ ht _ => exact .inl (by rw [ht]; exact hr.2)
  | began _ _ _ _ _ _ _ _ _ ht _ => exact .inl (by rw [ht])

/-- With a legal count no write leaves the store (R23, R50). -/
theorem Effect.bufferInside {s t : State} {i : Instr} (h : Effect s i t) (hs : s.BufferInside) (ht : t.Controlled) :
    t.BufferInside := by
  have hcfg := h.shape.cfg_eq
  rcases h.shape.init_or_buf_eq with hinit | hbuf
  · obtain ⟨-, hhi, -, -⟩ := ht.2 hinit
    exact h.written.inside hhi (hcfg ▸ hs)
  · unfold State.BufferInside
    rw [hbuf, hcfg]
    exact hs

/-! ### The layout of the rows -/

/-- What R24 lets row `r` of a device hold: the glyph columns in rows 2 to 6, the two indicator bits in row 7. -/
def RowFits (r : Nat) (v : Byte) : Prop := (2 ≤ r → r ≤ 6 → v &&& 0x83 = 0) ∧ (r = 7 → v &&& 0x7D = 0)

theorem State.rowLayout_iff (s : State) :
    s.RowLayout ↔ (s.init = true → ∀ d < s.count, ∀ r < 8, RowFits r (s.cell d r)) := by
  refine forall_congr' fun _ => forall_congr' fun d => forall_congr' fun _ => ⟨?_, fun h => ?_⟩
  · rintro ⟨hglyph, hind⟩ r -
    exact ⟨hglyph r, by rintro rfl; exact hind⟩
  · exact ⟨fun r hlo hhi => (h r (by omega)).1 hlo hhi, (h 7 (by decide)).2 rfl⟩

@[simp] theorem rowFits_zero (r : Nat) : RowFits r 0 := ⟨fun _ _ => rfl, fun _ => rfl⟩

/-- The degree rows 0 and 1 may hold anything. -/
theorem rowFits_of_lt_two {r : Nat} (v : Byte) (h : r < 2) : RowFits r v := ⟨by omega, by omega⟩

theorem glyphRow_fits (p : Glyph) {r : Nat} (hr : r < 7) : RowFits r (glyphRow p r) := by
  have key : ∀ x : BitVec 5, (x.setWidth 8) <<< 2 &&& (0x83 : Byte) = 0 := by decide
  refine ⟨fun _ _ => ?_, by omega⟩
  rw [glyphRow_eq]
  exact key _

theorem colonCell_fits (on : Bool) {v : Byte} (h : RowFits 7 v) : RowFits 7 (colonCell on v) := by
  have key : ∀ v : Byte, v &&& 0x7D = 0 → colonCell on v &&& 0x7D = 0 := by revert on; decide
  exact ⟨by omega, fun h7 => key v (h.2 h7)⟩

theorem decimalCell_fits (on : Bool) {v : Byte} (h : RowFits 7 v) : RowFits 7 (decimalCell on v) := by
  have key : ∀ v : Byte, v &&& 0x7D = 0 → decimalCell on v &&& 0x7D = 0 := by revert on; decide
  exact ⟨by omega, fun h7 => key v (h.2 h7)⟩

/-! ### The rows the commands write -/

/-- Every row of the list fits the row it goes to; past its end there is none. -/
def RowsFit (vs : List Byte) : Prop := ∀ r < 8, RowFits r (vs.getD r 0)

theorem blankRows_fit : RowsFit blankRows := fun r _ => by
  rw [blankRows_getD]
  exact rowFits_zero r

theorem glyphRows_fit (p : Glyph) : RowsFit (glyphRows p) := fun r hr => by
  rw [glyphRows_getD p hr]
  split
  · exact glyphRow_fits p ‹_›
  · exact rowFits_zero r

theorem charRows_fit (cfg : Config) (ch : Option Byte) : RowsFit (charRows cfg ch) := by
  cases ch with
  | none => exact blankRows_fit
  | some ch =>
    rw [charRows]
    split
    · exact glyphRows_fit _
    · split
      · exact glyphRows_fit _
      · exact blankRows_fit

theorem degreeRows_fit (cfg : Config) (on : Bool) : RowsFit (degreeRows cfg on) := fun r _ => by
  by_cases h : r < 2
  · exact rowFits_of_lt_two _ h
  · rw [List.getD_eq_default _ _ (by rw [degreeRows_length]; omega)]
    exact rowFits_zero r

theorem State.setRows_fits {s : State} (d : Nat) {vs : List Byte} {d' r : Nat} (hlen : vs.length ≤ 8) (hvs : RowsFit vs)
    (hr : r < 8) (h : RowFits r (s.cell d' r)) : RowFits r ((s.setRows d vs).cell d' r) := by
  rw [State.cell_setRows s vs hlen hr]
  split
  · exact hvs r hr
  · exact h

theorem State.setIndicators_fits {s : State} (d : Nat) {v : Byte} {d' r : Nat} (hv : RowFits 7 (s.cell d 7) → RowFits 7 v)
    (hr : r < 8) (h : RowFits r (s.cell d' r)) : RowFits r ((s.setCell d indicatorRow v).cell d' r) := by
  rw [State.cell_setCell s v (by decide) hr]
  split
  · rename_i heq
    obtain ⟨rfl, rfl⟩ := heq
    exact hv h
  · exact h

/-- Every effect but BEGIN's leaves a cell that fits its row fitting (R121, R127 to R131). -/
theorem Effect.rowFits {s t : State} {i : Instr} (he : Effect s i t) (hi : ∀ n, i ≠ .begin n) {d r : Nat} (hr : r < 8)
    (h : RowFits r (s.cell d r)) : RowFits r (t.cell d r) := by
  cases he with
  | raised | ignored | latched => exact h
  | digit | letter => exact State.setRows_fits _ (glyphRows_length _).le (glyphRows_fit _) hr h
  | clear => exact State.setRows_fits _ blankRows_length.le blankRows_fit hr h
  | degree dev on => exact State.setRows_fits _ (by rw [degreeRows_length]; omega) (degreeRows_fit _ on) hr h
  | text =>
    rw [State.cell_fillDevices _ _ _ (fun _ => charRows_length _ _) hr]
    split
    · exact charRows_fit _ _ r hr
    · exact h
  | colon dev on => exact State.setIndicators_fits _ (colonCell_fits on) hr h
  | decimal dev on => exact State.setIndicators_fits _ (decimalCell_fits on) hr h
  | indicators =>
    rw [State.cell_clearIndicators _ _ hr]
    split
    · exact rowFits_zero r
    · exact h
  | broadcast | targeted => exact (State.transaction_cell s _ d r).symm ▸ h
  | refresh => exact (s.refreshAll_spec.1.cell d r).symm ▸ h
  | clearDisplay =>
    rw [(State.refreshAll_spec _).1.cell, State.cell_clearBuffer _ _ hr]
    split
    · exact rowFits_zero r
    · exact h
  | begin n => exact absurd rfl (hi n)

/-- BEGIN leaves every cell of its devices zero (R153). -/
theorem State.begun_rowLayout (s : State) (n : Byte) :
    (((s.pinSetup.setCount n).clearBuffer n.toNat).configure).markInit.RowLayout := by
  change (s.beginCleared n).configure.markInit.RowLayout
  have hwires := (s.beginCleared n).configure_spec.1
  generalize (s.beginCleared n).configure = t at hwires ⊢
  rw [State.rowLayout_iff]
  intro _ d hd r hr
  have hd' : d < n.toNat := (hwires.count.trans (s.beginCleared_count n)) ▸ hd
  have hcell : t.markInit.cell d r = 0 :=
    calc t.cell d r
      _ = (s.beginCleared n).cell d r := hwires.cell d r
      _ = 0 := by rw [s.cell_beginCleared n hr, if_pos hd']
  rw [hcell]
  exact rowFits_zero r

theorem Effect.rowLayout {s t : State} {i : Instr} (he : Effect s i t) (hs : s.RowLayout) : t.RowLayout := by
  by_cases hi : ∃ n, i = .begin n
  · obtain ⟨n, rfl⟩ := hi
    cases he with
    | raised => exact hs
    | ignored _ hb => cases hb
    | latched _ _ hf => cases hf
    | begin => exact s.begun_rowLayout n
  · obtain ⟨hndev, hinit⟩ := he.shape.began_or_keeps.resolve_left fun hb => hi hb.1
    have hcount : t.count = s.count := congrArg BitVec.toNat hndev
    rw [State.rowLayout_iff, hcount, hinit]
    exact fun hon d hd r hr =>
      he.rowFits (fun n hn => hi ⟨n, hn⟩) hr ((State.rowLayout_iff s).1 hs hon d hd r hr)

/-! ### TRACE -/

/-- An instruction appends its transactions to TRACE, or nothing (R27). -/
theorem Shape.trace_extends {s t : State} {i : Instr} (h : Shape s i t) : ∃ es, t.trace = s.trace ++ es := by
  cases h with
  | sends _ _ _ _ _ _ hsends _ _ | began _ _ _ _ _ _ _ _ hsends _ _ => exact ⟨_, hsends.1⟩
  | raised _ _ _ ht | buffer _ _ ht => exact ⟨[], by rw [ht, List.append_nil]⟩
  | latched _ _ ht => exact ⟨[], by rw [ht, State.latchWith_trace, List.append_nil]⟩

/-! ### The obligations -/

/-- Settles O51: the controlled states are closed under every effect, and under a legal count the store is. -/
theorem stepKeepsControl : Obligations.StepKeepsControl := by
  intro s t hs h
  refine step_keeps (P := fun s => s.Controlled ∧ s.BufferInside) (fun _ _ _ _ _ _ hside => hside) ?_ hs h
  rintro s t i he ⟨hcontrol, hinside⟩
  have hcontrol' := he.shape.controlled hcontrol
  exact ⟨hcontrol', he.bufferInside hinside hcontrol'⟩

/-- Settles O52: BEGIN clears the devices it counts, and every other effect writes only rows that fit. -/
theorem stepKeepsRowLayout : Obligations.StepKeepsRowLayout := fun _ _ hs h =>
  step_keeps (P := State.RowLayout) (fun _ _ _ _ _ _ hside => hside) Effect.rowLayout hs h

/-- Settles O11: with INIT 0 the prologue ends the command before its own rule. -/
theorem uninitialisedCommandsRaise : Obligations.UninitialisedCommandsRaise :=
  fun _ _ _ hwf hfields hop hfault hinit => exec_uninit hfields hfault hwf hop hinit

/-- Settles O47: an instruction extends TRACE at its end, and a step that runs none leaves it. -/
theorem traceOnlyGrows : Obligations.TraceOnlyGrows := by
  intro s t h
  rcases step_shape h with ⟨i, rest, he⟩ | ⟨ht, -⟩
  · exact he.shape.trace_extends
  · exact ⟨[], by rw [ht, List.append_nil]⟩

/-- Settles O1: the four power-on values stand in the reset state, and its empty port makes the step wait. -/
theorem powerOnValues : Obligations.PowerOnValues := by
  have hwait : fetch State.reset = .waiting := rfl
  exact ⟨rfl, rfl, rfl, rfl, by rw [step, hwait]⟩

/-- Settles O49: INIT 0, an empty buffer, an empty TRACE and no pending latch leave each invariant nothing to ask but the
length of the chain. -/
theorem resetMeetsTheInvariants : Obligations.ResetMeetsTheInvariants := by
  have hinit : State.reset.init ≠ true := Bool.false_ne_true
  have hlatch : State.reset.latchPending ≠ true := Bool.false_ne_true
  refine ⟨rfl, ⟨rfl, fun h => absurd h hinit⟩, ?_, fun h => absurd h hinit, ⟨[], rfl, ?_⟩,
    List.length_replicate, fun h => absurd h hlatch⟩
  · exact fun c hc => absurd hc List.not_mem_nil
  · exact fun fs hfs => absurd hfs List.not_mem_nil

end Sys2Proof.Machine
end

section
/-! PROOFS. Memory and events (20_memory.md): TRACE stays whole transactions (R66, R73, R83, R85), a second REFRESH
changes no device (R58), the cells read as written, and the buffer stays canonical (R23, R50, R61). -/

namespace Sys2Proof.Machine

/-! ### Whole transactions -/

/-- Transactions that fit a chain go out behind whole ones, and TRACE stays whole. -/
theorem State.WholeTransactions.sends {s t : State} {n : Nat} {txs : List (List Frame)} (hs : s.WholeTransactions)
    (hsends : s.Sends t txs) (hfit : FramesFit n txs) : t.WholeTransactions := by
  obtain ⟨old, htrace, haddr⟩ := hs
  refine ⟨old ++ txs, by rw [hsends.1, htrace, List.flatMap_append], fun fs hfs => ?_⟩
  rcases List.mem_append.1 hfs with hold | hnew
  · exact haddr fs hold
  · exact (hfit fs hnew).2

/-- An instruction that touches TRACE sends whole transactions, none of them to 0xD or 0xE (R83, R85). -/
theorem Shape.wholeTransactions {s t : State} {i : Instr} (h : Shape s i t) (hs : s.WholeTransactions) :
    t.WholeTransactions := by
  cases h with
  | sends _ _ _ _ _ hfit hsends _ _ | began _ _ _ _ _ _ _ hfit hsends _ _ => exact hs.sends hsends hfit
  | raised _ _ _ ht | buffer _ _ ht | latched _ _ ht =>
    rw [ht]
    exact hs

/-! ### A device after a REFRESH -/

/-- What REFRESH makes of device `p`: its digit registers hold its cells and its shift register the frame of row 7,
the last one sent; nothing of the digits or shift register it had before is left (R150, R175). -/
def Device.refreshed (s : State) (p : Nat) (d : Device) : Device :=
  { d with
    sr := (0#4 ++ BitVec.ofNat 4 8) ++ s.cell p 7
    digits := Vector.ofFn fun r : Fin 8 => s.cell p r }

theorem Device.refreshed_idem (s : State) (p : Nat) (d : Device) :
    Device.refreshed s p (Device.refreshed s p d) = Device.refreshed s p d := rfl

theorem State.refreshAll_eachDevice (s : State) : s.EachDevice s.refreshAll s.count (Device.refreshed s) := by
  refine State.EachDevice.congr (s.refreshRows_eachDevice (k := 8) le_rfl) fun p _ d => ?_
  simp [Device.refreshed]

/-- The same change made twice, and idempotent, is made once. -/
theorem State.EachDevice.chain_eq_of_idem {s t u : State} {n : Nat} {f : Nat → Device → Device} (h : s.EachDevice t n f)
    (h' : t.EachDevice u n f) (hf : ∀ p d, f p (f p d) = f p d) : u.chain = t.chain := by
  refine List.ext_getElem? fun p => ?_
  rw [(h.trans h') p, h p]
  simp only [hf]

/-- A change of the wires leaves the count and the cells, and so the rows a REFRESH sends. -/
theorem State.OnlyWires.rowFrames_eq {s t : State} (h : s.OnlyWires t) : rowFrames t = rowFrames s := by
  funext r
  simp only [rowFrames, h.count, h.cell]

theorem State.OnlyWires.refreshed_eq {s t : State} (h : s.OnlyWires t) : Device.refreshed t = Device.refreshed s := by
  funext p d
  simp only [Device.refreshed, h.cell]

/-! ### The obligations -/

/-- Settles O53: an instruction appends whole transactions to specified addresses, and a step that runs none leaves
TRACE as it is. -/
theorem stepKeepsWholeTransactions : Obligations.StepKeepsWholeTransactions := fun _ _ hs h =>
  step_keeps (P := State.WholeTransactions) (fun _ _ _ _ _ _ hside => hside) (fun he => he.shape.wholeTransactions) hs h

/-- Settles O35: a REFRESH leaves the cells alone, so the second sends the same rows, and what they make of a device is
idempotent. -/
theorem refreshIsIdempotent : Obligations.RefreshIsIdempotent := by
  intro s hr
  obtain ⟨hwires, hsends⟩ := s.refreshAll_spec
  obtain ⟨-, hsends'⟩ := s.refreshAll.refreshAll_spec
  have hdev := s.refreshAll_eachDevice
  have hdev' := s.refreshAll.refreshAll_eachDevice
  rw [hwires.rowFrames_eq] at hsends'
  rw [hwires.refreshed_eq, hwires.count] at hdev'
  exact ⟨_, _, exec_refresh hr, exec_refresh (hwires.ready hr), hdev.chain_eq_of_idem hdev' (Device.refreshed_idem s),
    _, hsends.1, hsends'.1⟩

/-- Settles O48: a write is read back at its own address only, and a canonical buffer is the one listing of its cells. -/
theorem memoryReadsWhatWasWritten : Obligations.MemoryReadsWhatWasWritten :=
  ⟨Memory.read_write, fun _ _ => Memory.eq_of_read_eq⟩

/-- Settles O50: whatever a step does to the buffer is a sequence of cell writes, each of which keeps the canonical
form. -/
theorem stepKeepsBufferCanonical : Obligations.StepKeepsBufferCanonical := fun _ _ hs h =>
  step_keeps (P := State.CanonicalBuffer) (fun _ _ _ _ _ _ hside => hside) (fun he => he.written.wf) hs h

end Sys2Proof.Machine
end

section
/-! PROOFS. The two encodings (30_encoding.md): decoding undoes encoding and accepts nothing else (R71, R76-R80, R84), and
the decoders read the opcode table row by row (R77, R81-R85). -/

namespace Sys2Proof

/-! ### What is accepted -/

@[simp] theorem requireZeros_eq_ok_iff {w : Word} {zeros : Bool} {i j : Instr} :
    requireZeros w zeros i = .ok j ↔ zeros = true ∧ i = j := by
  cases zeros <;> simp [requireZeros]

@[simp] theorem requireBus_eq_ok_iff {w : Word} {zeros : Bool} {reg : Addr} {i j : Instr} :
    requireBus w zeros reg i = .ok j ↔ zeros = true ∧ reservedAddr reg = false ∧ i = j := by
  rw [requireBus, show (reg == 0xD || reg == 0xE) = reservedAddr reg from rfl]
  cases zeros <;> cases reservedAddr reg <;> simp

/-- An instruction that is no frame kind is a command. -/
theorem commandFields_of_frameFields_none {i : Instr} (h : frameFields i = none) : ∃ f, commandFields i = some f := by
  cases i with
  | noop | digit0 | digit1 | digit2 | digit3 | digit4 | digit5 | digit6 | digit7 | decodeMode | intensity | scanLimit
  | shutdown | displayTest => cases h
  | _ => exact ⟨_, rfl⟩

/-- R80 reads exactly the payload of a well-formed command after its word. -/
theorem payload_length {i : Instr} {f : CmdFields} (hwf : i.wf = true) (hf : commandFields i = some f) :
    (payload i).length = payloadLength f.toWord := by
  rw [payloadLength_toWord]
  cases i with
  | renderText text =>
    cases hf
    have hlen : text.length < 65536 := by simpa [Instr.wf] using hwf
    simp [payload, Nat.mod_eq_of_lt hlen]
  | _ => cases hf <;> rfl

/-- The word of a well-formed command decodes to it: its must-be-zero fields are zero (R82), and each operand is read
where it was put. -/
theorem decodeWord_commandFields {i : Instr} {f : CmdFields} (hwf : i.wf = true) (hf : commandFields i = some f) :
    decodeWord f.toWord (payload i) = .ok i := by
  cases i with
  | busBroadcast _ _ | busTargeted _ _ _ =>
    cases hf
    simpa [decodeWord, Instr.wf] using hwf
  | setColon _ on | setDecimal _ on | setDegree _ on =>
    cases hf
    simpa [decodeWord] using on_low on
  | begin _ | renderDigit _ _ | renderLetter _ _ | renderText _ | clearDevice _ | clearAllIndicators | refresh
  | clearDisplay =>
    cases hf
    simp [decodeWord, payload]
  | _ => cases hf

theorem decode_encode {i : Instr} (hwf : i.wf = true) (hframe : frameFields i = none) (rest : List Byte) :
    decode (encode i ++ rest) = .ok (i, rest) := by
  obtain ⟨f, hf⟩ := commandFields_of_frameFields_none hframe
  have hbytes : encode i ++ rest = wordBytes f.toWord ++ (payload i ++ rest) := by
    rw [encode, hframe, commandWord, hf, List.append_assoc]
  rw [hbytes, decode_wordBytes, decodeCommand_payload rest (payload_length hwf hf), decodeWord_commandFields hwf hf]
  rfl

/-- A frame decodes to a frame kind exactly where it is that kind's word (R71, R84). -/
theorem decodeFrame_eq_ok_iff {w : FrameWord} {i : Instr} :
    decodeFrame w = .ok i ↔ ∃ f, frameFields i = some f ∧ w = f.word := by
  constructor
  · intro h
    unfold decodeFrame at h
    split at h
    case isFalse => cases h
    case isTrue hnibble =>
      rcases hkind : frameKind (frameAddr w) (frameData w) with _ | j <;> rw [hkind] at h <;> cases h
      exact ⟨_, Machine.frameFields_of_frameKind hkind, (word_of_frame w (by simpa using hnibble)).symm⟩
  · rintro ⟨f, hf, rfl⟩
    simp [decodeFrame, Machine.frameKind_of_frameFields hf]

/-! ### What is refused -/

/-- The three reasons that make word `w` illegal (R81, R82, R83). -/
def DecodeError.Illegal (e : DecodeError) (w : Word) : Prop :=
  e = .reservedOp w ∨ e = .mustBeZero w ∨ e = .reservedRegister w

theorem requireZeros_eq_error {w : Word} {zeros : Bool} {i : Instr} {e : DecodeError}
    (h : requireZeros w zeros i = .error e) : e = .mustBeZero w := by
  cases zeros <;> cases h
  rfl

theorem requireBus_eq_error {w : Word} {zeros : Bool} {reg : Addr} {i : Instr} {e : DecodeError}
    (h : requireBus w zeros reg i = .error e) : e = .mustBeZero w ∨ e = .reservedRegister w := by
  unfold requireBus at h
  split at h
  · split at h <;> cases h
    exact .inr rfl
  · cases h
    exact .inl rfl

/-- The word decoder refuses a word only as illegal, and names that word. -/
theorem decodeWord_eq_error {w : Word} {text : List Byte} {e : DecodeError} (h : decodeWord w text = .error e) :
    e.Illegal w := by
  simp only [decodeWord] at h
  split at h
  case h_2 | h_3 => exact .inr (requireBus_eq_error h)
  case h_14 =>
    cases h
    exact .inl rfl
  all_goals exact .inr (.inl (requireZeros_eq_error h))

/-! ### The command rows of the opcode table -/

/-- Rows of which no two agree on the bits both their masks look at have no word in common. -/
theorem pairwise_disjoint {n : Nat} {table : List (BitVec n × BitVec n)}
    (h : table.Pairwise fun a b => a.1 &&& b.2 ≠ b.1 &&& a.2) :
    table.Pairwise fun a b => ∀ x : BitVec n, ¬ (x &&& a.2 = a.1 ∧ x &&& b.2 = b.1) := by
  refine h.imp fun {a b} hne x ⟨ha, hb⟩ => hne ?_
  rw [← ha, ← hb, BitVec.and_assoc, BitVec.and_assoc, BitVec.and_comm a.2]

/-- The masks of the thirteen command rows, by field: the whole of `op`, and the must-be-zero fields of R77. -/
def commandMasks : List CmdFields :=
  [ ⟨0xF, 0x00, 0xF, 0xFFFF⟩, ⟨0xF, 0xFF, 0x0, 0xFF00⟩, ⟨0xF, 0x00, 0x0, 0xFF00⟩, ⟨0xF, 0x00, 0xF, 0x0000⟩
  , ⟨0xF, 0x00, 0xF, 0xFF00⟩, ⟨0xF, 0xFF, 0xF, 0x0000⟩, ⟨0xF, 0x00, 0xF, 0xFFFF⟩, ⟨0xF, 0x00, 0xF, 0xFFFE⟩
  , ⟨0xF, 0x00, 0xF, 0xFFFE⟩, ⟨0xF, 0x00, 0xF, 0xFFFE⟩, ⟨0xF, 0xFF, 0xF, 0xFFFF⟩, ⟨0xF, 0xFF, 0xF, 0xFFFF⟩
  , ⟨0xF, 0xFF, 0xF, 0xFFFF⟩ ]

/-- The fields below `op` that the mask `m` looks at are zero. -/
def CmdFields.ZeroUnder (f m : CmdFields) : Prop := f.dev &&& m.dev = 0 ∧ f.reg &&& m.reg = 0 ∧ f.arg &&& m.arg = 0

/-- Row `k` asks for `op = k` and for zeros everywhere else under its mask. -/
theorem commandRows_eq : commandRows =
    commandMasks.mapIdx fun k m => (CmdFields.toWord ⟨BitVec.ofNat 4 k, 0, 0, 0⟩, m.toWord) := by
  decide

theorem commandMasks_op : ∀ m ∈ commandMasks, m.op = BitVec.allOnes 4 := by decide

theorem matches_commandRow_iff (f : CmdFields) (k : Nat) :
    (∃ row, commandRows[k]? = some row ∧ f.toWord &&& row.2 = row.1) ↔
      f.op.toNat = k ∧ ∃ m, commandMasks[k]? = some m ∧ f.ZeroUnder m := by
  have hop : ∀ m, commandMasks[k]? = some m → (f.op &&& m.op = BitVec.ofNat 4 k ↔ f.op.toNat = k) := by
    intro m hm
    obtain ⟨hk, -⟩ := List.getElem?_eq_some_iff.1 hm
    have hk : k < 13 := hk
    rw [commandMasks_op m (List.mem_of_getElem? hm), BitVec.and_allOnes, ← BitVec.toNat_inj, BitVec.toNat_ofNat,
      Nat.mod_eq_of_lt (by omega)]
  simp only [commandRows_eq, List.getElem?_mapIdx, Option.map_eq_some_iff, exists_exists_and_eq_and,
    CmdFields.toWord_and]
  constructor
  · rintro ⟨m, hm, hmatch, hzero⟩
    exact ⟨(hop m hm).1 hmatch, m, hm, hzero⟩
  · rintro ⟨hf, m, hm, hzero⟩
    exact ⟨m, hm, (hop m hm).2 hf, hzero⟩

theorem namesReservedRegister_toWord (f : CmdFields) :
    NamesReservedRegister f.toWord ↔ (f.op = 0x1 ∨ f.op = 0x2) ∧ reservedAddr f.reg = true := by
  have hop : f.toWord.extractLsb' 28 4 = f.op := congrArg CmdFields.op f.ofWord_toWord
  have hreg : f.toWord.extractLsb' 16 4 = f.reg := congrArg CmdFields.reg f.ofWord_toWord
  rw [NamesReservedRegister, hop, hreg]
  simp [reservedAddr]

/-! The masks of `commandMasks` on one field, their literals in simp's normal form. -/

theorem nibble_and_ones (x : BitVec 4) : x &&& 15#4 = x := BitVec.and_allOnes
theorem byte_and_ones (x : Byte) : x &&& 255#8 = x := BitVec.and_allOnes
theorem arg_and_ones (x : BitVec 16) : x &&& 65535#16 = x := BitVec.and_allOnes
theorem arg_and_high (x : BitVec 16) : x &&& 65280#16 = 0#16 ↔ x.extractLsb' 8 8 = 0#8 := and_high_eq_zero x
theorem arg_and_above (x : BitVec 16) : x &&& 65534#16 = 0#16 ↔ x.extractLsb' 1 15 = 0#15 := and_above_eq_zero x

/-- What the word decoder accepts, `op` by `op`: zeros under that row's mask, and no reserved register in a bus command;
the constructor is the row's. -/
theorem decodeWord_accepts_iff (f : CmdFields) (text : List Byte) (k : Nat) :
    (∃ i, decodeWord f.toWord text = .ok i ∧ tableRow i = k) ↔
      ((∃ m, commandMasks[f.op.toNat]? = some m ∧ f.ZeroUnder m) ∧
        ¬ ((f.op = 0x1 ∨ f.op = 0x2) ∧ reservedAddr f.reg = true)) ∧ f.op.toNat = k := by
  rcases f with ⟨op, dev, reg, arg⟩
  obtain ⟨n, rfl⟩ : ∃ n : Fin 16, op = BitVec.ofNat 4 n := ⟨op.toFin, by simp⟩
  fin_cases n <;>
    simp [decodeWord, tableRow, commandMasks, CmdFields.ZeroUnder, CmdFields.argHigh, nibble_and_ones, byte_and_ones,
      arg_and_ones, arg_and_high, arg_and_above, and_assoc]

theorem decodeWord_row_iff (w : Word) (text : List Byte) (k : Nat) :
    (∃ i, decodeWord w text = .ok i ∧ tableRow i = k) ↔
      (∃ row, commandRows[k]? = some row ∧ w &&& row.2 = row.1) ∧ ¬ NamesReservedRegister w := by
  rw [← CmdFields.toWord_ofWord w, decodeWord_accepts_iff, matches_commandRow_iff, namesReservedRegister_toWord]
  constructor
  · rintro ⟨⟨hmask, hreg⟩, rfl⟩
    exact ⟨⟨rfl, hmask⟩, hreg⟩
  · rintro ⟨⟨rfl, hmask⟩, hreg⟩
    exact ⟨⟨hmask, hreg⟩, rfl⟩

/-- The legal words are the ones the word decoder accepts, whatever the payload. -/
theorem legalWord_iff {w : Word} (text : List Byte) : LegalWord w ↔ ∃ i, decodeWord w text = .ok i := by
  constructor
  · rintro ⟨⟨row, hrow, hmatch⟩, hreg⟩
    obtain ⟨k, hk⟩ := List.mem_iff_getElem?.1 hrow
    obtain ⟨i, hi, -⟩ := (decodeWord_row_iff w text k).2 ⟨⟨row, hk, hmatch⟩, hreg⟩
    exact ⟨i, hi⟩
  · rintro ⟨i, hi⟩
    obtain ⟨⟨row, hk, hmatch⟩, hreg⟩ := (decodeWord_row_iff w text (tableRow i)).1 ⟨i, hi, rfl⟩
    exact ⟨⟨row, List.mem_of_getElem? hk, hmatch⟩, hreg⟩

/-! ### The frame rows of the opcode table -/

/-- The register addresses of the fourteen frame rows (R84). -/
def frameRowAddrs : List Addr := [0x0, 0x1, 0x2, 0x3, 0x4, 0x5, 0x6, 0x7, 0x8, 0x9, 0xA, 0xB, 0xC, 0xF]

theorem frameRows_eq : frameRows = frameRowAddrs.map fun a => (Frame.word ⟨a, 0⟩, 0xFF00) := by decide

theorem high_append_frameData (w : FrameWord) : w.extractLsb' 8 8 ++ frameData w = w := by
  rw [frameData, BitVec.extractLsb'_append_extractLsb'_eq_extractLsb' (by omega)]
  exact BitVec.extractLsb'_eq_self

theorem append_and_high (hi lo : Byte) : (hi ++ lo) &&& (0xFF00 : FrameWord) = hi ++ 0#8 := by
  rw [show (0xFF00 : FrameWord) = BitVec.allOnes 8 ++ 0#8 from rfl, BitVec.and_append, BitVec.and_allOnes,
    BitVec.and_zero]

/-- A frame matches the row of address `a` exactly where it is a frame to `a`. -/
theorem matches_frameRow_iff (w : FrameWord) (a : Addr) :
    w &&& 0xFF00 = Frame.word ⟨a, 0⟩ ↔ ∃ data, w = Frame.word ⟨a, data⟩ := by
  constructor
  · intro h
    rw [← high_append_frameData w, append_and_high] at h
    have hhigh : w.extractLsb' 8 8 = 0#4 ++ a := by
      have := congrArg (BitVec.extractLsb' 8 8) h
      rwa [Frame.word, BitVec.extractLsb'_append_eq_left, BitVec.extractLsb'_append_eq_left] at this
    exact ⟨frameData w, by rw [Frame.word, ← hhigh, high_append_frameData]⟩
  · rintro ⟨data, rfl⟩
    exact append_and_high _ _

/-- The frame kind of an address is the constructor of that address's row. -/
theorem frameFields_row_iff (a : Addr) (data : Byte) (k : Nat) :
    (∃ i, frameFields i = some ⟨a, data⟩ ∧ tableRow i = 13 + k) ↔ frameRowAddrs[k]? = some a := by
  constructor
  · rintro ⟨i, hi, hk⟩
    rw [show k = tableRow i - 13 by omega]
    cases i <;> cases hi <;> rfl
  · intro h
    obtain ⟨hk, -⟩ := List.getElem?_eq_some_iff.1 h
    have hk : k < 14 := hk
    interval_cases k <;> cases h <;> exact ⟨_, Machine.frameFields_of_frameKind rfl, rfl⟩

theorem decodeFrame_row_iff (w : FrameWord) (k : Nat) :
    (∃ i, decodeFrame w = .ok i ∧ tableRow i = 13 + k) ↔ ∃ row, frameRows[k]? = some row ∧ w &&& row.2 = row.1 := by
  simp only [frameRows_eq, List.getElem?_map, Option.map_eq_some_iff, exists_exists_and_eq_and, matches_frameRow_iff,
    decodeFrame_eq_ok_iff]
  constructor
  · rintro ⟨i, ⟨⟨a, data⟩, hi, hw⟩, hk⟩
    exact ⟨a, (frameFields_row_iff a data k).1 ⟨i, hi, hk⟩, data, hw⟩
  · rintro ⟨a, ha, data, hw⟩
    obtain ⟨i, hi, hk⟩ := (frameFields_row_iff a data k).2 ha
    exact ⟨i, ⟨_, hi, hw⟩, hk⟩

/-! ### The obligations -/

/-- Settles O7: each operand is read back from the field it was put in, and the payload ends where the length says. -/
theorem decodeEncodeAgree : Obligations.DecodeEncodeAgree := fun _ hwf =>
  ⟨decode_encode hwf, fun f hf => ⟨decodeFrame_eq_ok_iff.2 ⟨f, hf, rfl⟩, by rw [encode, hf]⟩⟩

/-- Settles O8: an accepted word holds the fields of its command, an accepted frame those of its kind. -/
theorem acceptedBitsReencode : Obligations.AcceptedBitsReencode := by
  refine ⟨fun bs rest i h => ?_, fun w i h => decodeFrame_eq_ok_iff.1 h⟩
  obtain ⟨hwf, hcommand, hbytes⟩ := decode_ok h
  have hframe := frameFields_of_command hcommand
  exact ⟨hwf, hframe, by rw [encode, hframe, hbytes]⟩

/-- Settles O9: matching a row is having its `op` or address and zeros under its mask, which is what the decoders ask
for; and any two rows differ on bits both masks look at. -/
theorem decodersReadTheOpcodeTable : Obligations.DecodersReadTheOpcodeTable :=
  ⟨decodeWord_row_iff, decodeFrame_row_iff, pairwise_disjoint (by decide), pairwise_disjoint (by decide)⟩

/-- Settles O10: the decoders evaluated on the eight words. -/
theorem writtenOutWordsDecode : Obligations.WrittenOutWordsDecode := by
  unfold Obligations.WrittenOutWordsDecode
  decide

end Sys2Proof
end

section
/-! PROOFS. The encodings in a step: the block waits for a whole command (R80, R220), an illegal word raises
IllegalCommand and a legal one never does (R81-R83, R202), and a frame leaves the block bit 15 first (R72, R100, R101). -/

namespace Sys2Proof.Machine

/-! ### Steps that take a command -/

theorem fetch_of_takesCommand {s : State} (h : s.TakesCommand) : fetch s = fetchCommand s.port := by
  obtain ⟨hlatch, hfault⟩ := h
  simp [fetch, hlatch, hfault]

theorem step_waiting {s : State} (hs : s.TakesCommand)
    (h : decode s.port = .error .incompleteWord ∨ decode s.port = .error .incompletePayload) : step s = .next s := by
  have hwait : fetchCommand s.port = .waiting := by
    rcases h with h | h <;> rw [fetchCommand, h]
  rw [step, fetch_of_takesCommand hs, hwait]

theorem step_illegal {s : State} {e : DecodeError} {w : Word} (hs : s.TakesCommand) (h : decode s.port = .error e)
    (he : e.Illegal w) :
    step s = .next { s with fault := some (.illegalCommand w), port := portAfter w s.port } := by
  have hill : fetchCommand s.port = .illegal w (portAfter w s.port) := by
    rcases he with rfl | rfl | rfl <;> rw [fetchCommand, h]
  rw [step, fetch_of_takesCommand hs, hill]
  rfl

theorem step_command {s : State} {i : Instr} {rest : List Byte} (hs : s.TakesCommand)
    (h : decode s.port = .ok (i, rest)) : step s = exec i { s with port := rest } := by
  rw [step, fetch_of_takesCommand hs, fetchCommand, h]

/-! ### Whole, short and legal commands on the port -/

theorem decode_short {port : List Byte} (h : port.length < 4) : decode port = .error .incompleteWord := by
  match port, h with
  | [], _ | [_], _ | [_, _], _ | [_, _, _], _ => rfl

theorem portAfter_payload {w : Word} {text : List Byte} (rest : List Byte) (h : text.length = payloadLength w) :
    portAfter w (wordBytes w ++ text ++ rest) = rest := by
  rw [portAfter, ← h]
  exact List.drop_left' (by rw [List.length_append]; rfl)

/-- A legal word with bytes after it lacks payload or decodes. -/
theorem decode_legal {w : Word} (hw : LegalWord w) (rest : List Byte) :
    decode (wordBytes w ++ rest) = .error .incompletePayload ∨
      ∃ i rest', decode (wordBytes w ++ rest) = .ok (i, rest') := by
  rw [decode_wordBytes, decodeCommand]
  split
  · exact .inl rfl
  · obtain ⟨i, hi⟩ := (legalWord_iff (rest.take (payloadLength w))).1 hw
    exact .inr ⟨i, _, by rw [hi]; rfl⟩

/-! ### The faults of well-formed commands -/

theorem Raises.ne_illegalCommand {s : State} {i : Instr} {r : FaultRecord} (h : Raises s i r) (hwf : i.wf = true)
    (w : Word) : r ≠ .illegalCommand w := by
  cases h with
  | prologue _ f _ hf hr =>
    rcases hr with ⟨hill, -⟩ | ⟨-, -, -, rfl⟩
    · simp [hwf] at hill
    · simp
  | count | target => simp

/-- A well-formed instruction leaves FAULT empty or records another fault. -/
theorem Effect.fault_ne_illegalCommand {s t : State} {i : Instr} (h : Effect s i t) (hwf : i.wf = true)
    (hs : s.fault = none) (w : Word) : t.fault ≠ some (.illegalCommand w) := by
  cases h.shape with
  | raised r hr _ ht =>
    rw [ht]
    simpa using hr.ne_illegalCommand hwf w
  | buffer _ _ ht | sends _ _ _ _ _ _ _ ht _ | began _ _ _ _ _ _ _ _ _ ht _ | latched _ _ ht =>
    rw [ht]
    simp [hs]

/-! ### The obligations -/

/-- Settles O5: neither a short word nor a short payload decodes, and both leave the block waiting. -/
theorem incompleteCommandWaits : Obligations.IncompleteCommandWaits := by
  intro s hs hport
  refine step_waiting hs ?_
  rcases hport with hword | ⟨dev, reg, len, text, htext, hport⟩
  · exact .inl (decode_short hword)
  · have hlen : payloadLength ((0x5#4 ++ dev) ++ (reg ++ len)) = len.toNat := payloadLength_toWord ⟨0x5, dev, reg, len⟩
    exact .inr (by rw [hport, decode_wordBytes, decodeCommand_short (hlen ▸ htext)])

/-- Settles O6: the words that are not legal are the ones the word decoder refuses, and a legal one waits or decodes to a
well-formed command, which raises no IllegalCommand. -/
theorem illegalWordsRaise : Obligations.IllegalWordsRaise := by
  constructor
  · intro s w text rest hs htext hport hw
    rcases hdec : decodeWord w text with e | i
    · have hdecode : decode s.port = .error e := by
        rw [hport, List.append_assoc, decode_wordBytes, decodeCommand_payload rest htext, hdec]
        rfl
      rw [step_illegal hs hdecode (decodeWord_eq_error hdec), hport, portAfter_payload rest htext]
    · exact absurd ((legalWord_iff text).2 ⟨i, hdec⟩) hw
  · intro s t w w' rest hs hport hw h
    rcases hport ▸ decode_legal hw rest with hshort | ⟨i, rest', hdecode⟩
    · rw [step_waiting hs (.inr hshort)] at h
      cases h
      simp [hs.2]
    · rw [step_command hs hdecode] at h
      exact (exec_effect h).fault_ne_illegalCommand (decode_ok hdecode).1 hs.2 w'

/-- Settles O28: bit `k` of the sixteen is bit `15 - k` of the frame, and a BIT event drives the ports in the order of
R100. -/
theorem framesGoOutMsbFirst : Obligations.FramesGoOutMsbFirst := by
  refine ⟨fun f => ⟨by simp [Frame.events], fun k hk => ?_⟩, fun s b => ⟨rfl, rfl, rfl, rfl⟩⟩
  rw [Frame.events, frameBits_eq, List.getElem?_map, List.getElem?_map, List.getElem?_range hk]
  rfl

end Sys2Proof.Machine
end

section
/-! PROOFS. The bus (40_bus_protocol.md): no command reads the chain (R107), what the two bus commands make of every
device (R103, R104, R106, R173-R180), and that a step runs the command the port holds (R109, R61). -/

namespace Sys2Proof.Machine

/-! ### The block beside two chains -/

theorem State.OffChain.beginCleared {s t : State} (h : s.OffChain t) (n : Byte) :
    (s.beginCleared n).OffChain (t.beginCleared n) := by
  have hports : (s.pinSetup.setCount n).OffChain (t.pinSetup.setCount n) := by
    unfold State.OffChain at *
    rw [h]
    rfl
  exact hports.fillDevices n.toNat _

theorem State.OffChain.markInit {s t : State} (h : s.OffChain t) : s.markInit.OffChain t.markInit := by
  unfold State.OffChain at *
  rw [h]
  rfl

/-- A cell rewritten from what it holds is the same beside two chains. -/
theorem State.OffChain.modifyCell {s t : State} (h : s.OffChain t) (d r : Nat) (f : Byte → Byte) :
    (s.setCell d r (f (s.cell d r))).OffChain (t.setCell d r (f (t.cell d r))) := by
  rw [h.cell]
  exact h.setCell d r _

/-- A command does the same to the block beside two chains if the body behind its prologue does. -/
theorem State.OffChain.command {s t : State} (h : s.OffChain t) {i : Instr} {op : BitVec 4} {body : State → Result}
    (he : ∀ s, exec i s = s.runCommand i op body) (hb : ∀ s t : State, s.OffChain t → SameBlock (body s) (body t)) :
    SameBlock (exec i s) (exec i t) := by
  rw [he, he]
  exact h.runCommand i op body hb

/-- Every command decides by the configuration, NDEV, INIT, FAULT and the buffer alone, so it does the same to the block
beside any chain (R107). -/
theorem State.OffChain.exec {s t : State} (h : s.OffChain t) {i : Instr} (hc : (commandFields i).isSome = true) :
    SameBlock (exec i s) (exec i t) := by
  cases i with
  | begin n =>
    refine h.command (execBegin.eq_1 n) fun s t h => ?_
    rw [h.cfg]
    split
    · exact h.raise _
    · split
      · exact h.raise _
      · exact (h.beginCleared n).configure.markInit
  | busBroadcast reg data => exact h.command (execBusBroadcast.eq_1 reg data) fun _ _ h => h.broadcast _
  | busTargeted dev reg data =>
    refine h.command (execBusTargeted.eq_1 dev reg data) fun s t h => ?_
    rw [h.count]
    split
    · exact h.raise _
    · exact h.transaction _
  | renderDigit dev arg =>
    refine h.command (execRenderDigit.eq_1 dev arg) fun s t h => h.guardDevice dev _ ?_
    rw [h.cfg]
    split
    · exact h.setRows _ _
    · exact h
  | renderLetter dev letter =>
    refine h.command (execRenderLetter.eq_1 dev letter) fun s t h => h.guardDevice dev _ ?_
    rw [h.cfg]
    split
    · exact h.setRows _ _
    · exact h
  | renderText text =>
    refine h.command (execRenderText.eq_1 text) fun s t h => ?_
    rw [h.cfg, h.count]
    exact h.fillDevices _ _
  | clearDevice dev =>
    exact h.command (execClearDevice.eq_1 dev) fun _ _ h => h.guardDevice dev _ (h.setRows _ _)
  | setColon dev on =>
    exact h.command (execSetColon.eq_1 dev on) fun _ _ h => h.guardDevice dev _ (h.modifyCell _ _ (colonCell on))
  | setDecimal dev on =>
    exact h.command (execSetDecimal.eq_1 dev on) fun _ _ h => h.guardDevice dev _ (h.modifyCell _ _ (decimalCell on))
  | setDegree dev on =>
    refine h.command (execSetDegree.eq_1 dev on) fun s t h => h.guardDevice dev _ ?_
    rw [h.cfg]
    exact h.setRows _ _
  | clearAllIndicators =>
    refine h.command execClearAllIndicators.eq_1 fun s t h => ?_
    rw [h.count]
    exact h.clearIndicators _
  | refresh => exact h.command execRefresh.eq_1 fun _ _ h => h.refreshAll
  | clearDisplay =>
    refine h.command execClearDisplay.eq_1 fun s t h => ?_
    rw [h.count]
    exact (h.fillDevices _ _).refreshAll
  | noop | digit0 | digit1 | digit2 | digit3 | digit4 | digit5 | digit6 | digit7 | decodeMode | intensity | scanLimit
  | shutdown | displayTest => cases hc

/-! ### The rule of a register -/

/-- The addresses by their rule: the digit registers (R175), the five configuration registers (R176 to R180), the no-op
(R174), and the two of unspecified effect (R181). -/
theorem addr_cases : ∀ a : Addr, (∃ r : Fin 8, a = rowAddr r) ∨ a = 0x9 ∨ a = 0xA ∨ a = 0xB ∨ a = 0xC ∨ a = 0xF ∨
    a = 0x0 ∨ a = 0xD ∨ a = 0xE := by
  decide

/-- One digit register of the eight is written. -/
theorem latchRule_rowAddr (r : Fin 8) (data : Byte) (d : Device) :
    latchRule (rowAddr r) data d = Device.latchDigit r data d := by
  have haddr : (rowAddr r).toNat = r.val + 1 := by
    rw [rowAddr, BitVec.toNat_ofNat]
    omega
  rw [latchRule, haddr, if_pos (by omega), Device.latchDigit]
  congr 1
  ext j hj
  simp only [Vector.getElem_ofFn, Vector.getElem_set, Nat.add_right_cancel_iff, eq_comm (a := j)]
  rfl

theorem extractLsb'_bit_eq_ofBool : ∀ x : Byte, x.extractLsb' 0 1 = BitVec.ofBool (x.getLsbD 0) := by
  decide

/-- At a specified address a device does what `latchRule` writes out of R174 to R180. -/
theorem Device.apply_eq_latchRule {addr : Addr} (data : Byte) (free d : Device) (h : addr ≠ 0xD ∧ addr ≠ 0xE) :
    Device.apply addr data free d = latchRule addr data d := by
  rcases addr_cases addr with ⟨r, rfl⟩ | rfl | rfl | rfl | rfl | rfl | rfl | hD | hE
  · rw [Device.apply_row r.isLt, latchRule_rowAddr]
  · rfl
  · rfl
  · rfl
  · exact congrArg (fun x => { d with shutdown := x }) (extractLsb'_bit_eq_ofBool data)
  · exact congrArg (fun x => { d with test := x }) (extractLsb'_bit_eq_ofBool data)
  · rfl
  · exact absurd hD h.1
  · exact absurd hE h.2

/-! ### A targeted write -/

/-- The frame of each device in a targeted write. -/
def targetedFrame (target : Nat) (f : Frame) (d : Nat) : Frame := if d = target then f else Frame.noop

theorem targetedFrames_eq_framesFor (n target : Nat) (f : Frame) :
    targetedFrames n target f = framesFor n (targetedFrame target f) := rfl

theorem targetedFrame_specified (target : Nat) {f : Frame} (hf : f.addr ≠ 0xD ∧ f.addr ≠ 0xE) (d : Nat) :
    (targetedFrame target f d).addr ≠ 0xD ∧ (targetedFrame target f d).addr ≠ 0xE := by
  unfold targetedFrame
  split
  · exact hf
  · decide

/-- The frame of a target below `n` goes out in slot `n - 1 - target` (R104, R106). -/
theorem targetedFrames_eq {n target : Nat} (f : Frame) (h : target < n) :
    targetedFrames n target f = (List.range n).map fun j => if j = n - 1 - target then f else Frame.noop := by
  rw [targetedFrames_eq_framesFor, framesFor_eq]
  refine List.map_congr_left fun j hj => ?_
  have hslot : n - 1 - j = target ↔ j = n - 1 - target := by
    have := List.mem_range.1 hj
    omega
  simp only [targetedFrame, hslot]

/-- A targeted write: what goes out, and what every device has become (R104). -/
theorem State.targeted_spec (s : State) {target : Nat} {f : Frame} (hf : f.addr ≠ 0xD ∧ f.addr ≠ 0xE) :
    s.OnlyWires (s.transaction (targetedFrames s.count target f)) ∧
      s.Sends (s.transaction (targetedFrames s.count target f)) [targetedFrames s.count target f] ∧
      s.EachDevice (s.transaction (targetedFrames s.count target f)) s.count fun p d =>
        if p = target then Device.apply f.addr f.data d { d with sr := f.word } else { d with sr := 0 } := by
  have hspec := targetedFrame_specified target hf
  refine ⟨s.framesFor_onlyWires _ hspec, s.transaction_sends _ (framesFor_length _ _),
    (s.framesFor_eachDevice _ hspec).congr fun p _ d => ?_⟩
  unfold targetedFrame
  split <;> rfl

/-! ### The obligations -/

/-- Settles O44: the two states agree off the chain, and every command keeps two such states so. -/
theorem commandsNeverReadTheChain : Obligations.CommandsNeverReadTheChain :=
  fun _ s chain draws hc => (State.OffChain.other s chain draws).exec hc

/-- Settles O30: the broadcast's one transaction gives every device the same frame, whose rule it applies. -/
theorem broadcastReachesEveryDevice : Obligations.BroadcastReachesEveryDevice := by
  intro s reg data hr h1 h2
  obtain ⟨hwires, hsends, -, hdev⟩ := s.broadcast_spec ⟨reg, data⟩ ⟨h1, h2⟩ rfl
  exact ⟨_, exec_busBroadcast data hr h1 h2, hwires, hsends,
    hdev.congr fun _ _ d => Device.apply_eq_latchRule data d _ ⟨h1, h2⟩⟩

/-- Settles O31: the target's slot carries the frame, whose rule the target applies; every other slot carries the no-op,
which leaves a device all but its shift register. -/
theorem targetedReachesOneDevice : Obligations.TargetedReachesOneDevice := by
  intro s dev reg data hr h1 h2 hd
  obtain ⟨hwires, hsends, hdev⟩ := s.targeted_spec (target := dev.toNat) (f := ⟨reg, data⟩) ⟨h1, h2⟩
  refine ⟨_, exec_busTargeted data hr h1 h2 hd, hwires, targetedFrames_eq _ hd ▸ hsends, hdev.congr fun p _ d => ?_⟩
  rw [Device.apply_eq_latchRule data d _ ⟨h1, h2⟩]
  rfl

/-- Settles O2: with no latch pending and no fault the step takes what the port decodes to. -/
theorem stepRunsDecodedCommand : Obligations.StepRunsDecodedCommand := fun _ _ _ hs hdecode => step_command hs hdecode

end Sys2Proof.Machine
end

section
/-! PROOFS. Glyphs and text (41_buffer_glyph.md): the rows RenderGlyph writes (R121), which numbers and bytes name a
digit or a letter (R123, R124), and the rows a character of a text gives its device (R125, R126). -/

namespace Sys2Proof.Machine

/-! ### The font -/

theorem digitGlyph_eq (cfg : Config) {n : Nat} (h : n < 10) : digitGlyph cfg n = cfg.fontDigit[n] := by
  rw [digitGlyph, Vector.getElem?_eq_getElem h, Option.getD_some]

theorem letterGlyph_eq (cfg : Config) {l : Nat} (h : l < 26) : letterGlyph cfg l = cfg.fontLetter[l] := by
  rw [letterGlyph, Vector.getElem?_eq_getElem h, Option.getD_some]

/-- Bit `k` of a glyph row is font column `k - 2`; no column reaches bits 0, 1 and 7 (R121). -/
theorem getLsbD_glyphRow (p : Glyph) {r k : Nat} (hr : r < 7) (hk : k < 8) :
    (glyphRow p r).getLsbD k = (decide (2 ≤ k) && p[r].getLsbD (k - 2)) := by
  have hshift : k - 2 < 8 := by omega
  rw [glyphRow_eq, Vector.getElem?_eq_getElem hr, Option.getD_some, BitVec.getLsbD_shiftLeft, BitVec.getLsbD_setWidth]
  simp only [hk, hshift, decide_true, Bool.true_and, ← decide_not, Nat.not_lt]

/-- Row `r` of the eight rows a glyph gives a device, in the form of the statements. -/
theorem glyphRows_getD_eq (p : Glyph) {r : Nat} (hr : r < 8) :
    (glyphRows p).getD r 0 = if r = 7 then 0 else glyphRow p r := by
  have h7 : r < 7 ↔ ¬ r = 7 := by omega
  rw [glyphRows_getD p hr, if_congr h7 rfl rfl, ite_not]

/-! ### Digit numbers -/

theorem isDigitValue_iff (z : Int) : isDigitValue z = true ↔ 0 ≤ z ∧ z ≤ 9 := by
  simp [isDigitValue]

theorem signedNumber_ofNat {n : Nat} (h : n < 10) : signedNumber (BitVec.ofNat 16 n) = n := by
  have hmod : n % 2 ^ 16 = n := Nat.mod_eq_of_lt (by omega)
  rw [signedNumber, BitVec.toInt_eq_toNat_of_lt (by rw [BitVec.toNat_ofNat, hmod]; omega), BitVec.toNat_ofNat, hmod]

/-- RENDER_DIGIT of a digit renders that digit's glyph (R123). -/
theorem exec_renderDigit_number {s : State} {dev : Byte} {n : Nat} (h : s.Ready) (hd : dev.toNat < s.count)
    (hn : n < 10) :
    exec (.renderDigit dev (BitVec.ofNat 16 n)) s = .next (s.renderGlyph dev.toNat s.cfg.fontDigit[n]) := by
  have hdigit : isDigitValue (signedNumber (BitVec.ofNat 16 n)) = true := by
    rw [isDigitValue_iff, signedNumber_ofNat hn]
    omega
  rw [exec_renderDigit h hd hdigit, signedNumber_ofNat hn, Int.toNat_natCast, digitGlyph_eq _ hn]

/-! ### Letters -/

/-- The number of a character counted from the first of its kind. -/
theorem toNat_sub_first {ch first : Byte} {n : Nat} (h : ch.toNat = first.toNat + n) : (ch - first).toNat = n := by
  rw [BitVec.toNat_sub_of_le (BitVec.le_def.2 (by omega)), h, Nat.add_sub_cancel_left]

theorem toNat_foldLetter (ch : Byte) :
    (foldLetter ch).toNat = if 0x61 ≤ ch.toNat ∧ ch.toNat ≤ 0x7A then ch.toNat - 0x20 else ch.toNat := by
  have hiff : ((0x61 : Byte) ≤ ch ∧ ch ≤ 0x7A) ↔ (0x61 ≤ ch.toNat ∧ ch.toNat ≤ 0x7A) := Iff.rfl
  rw [foldLetter, if_congr hiff rfl rfl]
  split
  · exact toNat_sub_first (show ch.toNat = 0x20 + (ch.toNat - 0x20) by omega)
  · rfl

theorem isUpper_iff (u : Byte) : isUpper u = true ↔ 0x41 ≤ u.toNat ∧ u.toNat ≤ 0x5A := by
  simp [isUpper, BitVec.le_def]

/-- A letter of number `l`, in either case, folds to the upper-case letter of that number. -/
theorem toNat_foldLetter_letter {ch : Byte} {l : Nat} (hl : l < 26)
    (hch : ch.toNat = 0x41 + l ∨ ch.toNat = 0x61 + l) : (foldLetter ch).toNat = 0x41 + l := by
  rw [toNat_foldLetter]
  split <;> omega

/-- A letter of number `l`, in either case, reads the glyph of that number. -/
theorem letterGlyph_foldLetter (cfg : Config) {ch : Byte} {l : Nat} (hl : l < 26)
    (hch : ch.toNat = 0x41 + l ∨ ch.toNat = 0x61 + l) :
    letterGlyph cfg (foldLetter ch - 0x41).toNat = cfg.fontLetter[l] := by
  rw [toNat_sub_first (toNat_foldLetter_letter hl hch), letterGlyph_eq cfg hl]

/-- RENDER_LETTER of a letter in either case renders that letter's glyph (R124). -/
theorem exec_renderLetter_letter {s : State} {dev ch : Byte} {l : Nat} (h : s.Ready) (hd : dev.toNat < s.count)
    (hl : l < 26) (hch : ch.toNat = 0x41 + l ∨ ch.toNat = 0x61 + l) :
    exec (.renderLetter dev ch) s = .next (s.renderGlyph dev.toNat s.cfg.fontLetter[l]) := by
  have hupper : isUpper (foldLetter ch) = true := by
    rw [isUpper_iff, toNat_foldLetter_letter hl hch]
    omega
  rw [exec_renderLetter h hd hupper, letterGlyph_foldLetter _ hl hch]

/-! ### The characters of a text -/

theorem isDigitChar_iff (ch : Byte) : isDigitChar ch = true ↔ 0x30 ≤ ch.toNat ∧ ch.toNat ≤ 0x39 := by
  simp [isDigitChar, BitVec.le_def]

theorem isLetterChar_iff (ch : Byte) :
    isLetterChar ch = true ↔ (0x41 ≤ ch.toNat ∧ ch.toNat ≤ 0x5A) ∨ (0x61 ≤ ch.toNat ∧ ch.toNat ≤ 0x7A) := by
  simp [isLetterChar, BitVec.le_def]

theorem charRows_digit (cfg : Config) {ch : Byte} {n : Nat} (hn : n < 10) (hch : ch.toNat = 0x30 + n) :
    charRows cfg (some ch) = glyphRows cfg.fontDigit[n] := by
  rw [charRows, if_pos ((isDigitChar_iff ch).2 (by omega)), digitCharRows, toNat_sub_first hch, digitGlyph_eq cfg hn]

theorem charRows_letter (cfg : Config) {ch : Byte} {l : Nat} (hl : l < 26)
    (hch : ch.toNat = 0x41 + l ∨ ch.toNat = 0x61 + l) : charRows cfg (some ch) = glyphRows cfg.fontLetter[l] := by
  rw [charRows, if_neg (by rw [isDigitChar_iff]; omega), if_pos ((isLetterChar_iff ch).2 (by omega)), letterRows,
    letterGlyph_foldLetter cfg hl hch]

theorem charRows_other (cfg : Config) {ch : Byte} (hdigit : ¬ (0x30 ≤ ch.toNat ∧ ch.toNat ≤ 0x39))
    (hupper : ¬ (0x41 ≤ ch.toNat ∧ ch.toNat ≤ 0x5A)) (hlower : ¬ (0x61 ≤ ch.toNat ∧ ch.toNat ≤ 0x7A)) :
    charRows cfg (some ch) = blankRows := by
  rw [charRows, if_neg (by rwa [isDigitChar_iff]), if_neg (by rw [isLetterChar_iff]; tauto)]

/-- The rows RENDER_TEXT gives a device are R125's and R126's, row by row. -/
theorem charRows_getD (cfg : Config) {r : Nat} (hr : r < 8) (ch : Option Byte) :
    (charRows cfg ch).getD r 0 = textRow cfg r ch := by
  rcases ch with _ | ch
  · exact blankRows_getD r
  rw [textRow]
  by_cases hdigit : 0x30 ≤ ch.toNat ∧ ch.toNat ≤ 0x39
  · rw [dif_pos hdigit, charRows_digit cfg (n := ch.toNat - 0x30) (by omega) (by omega), glyphRows_getD_eq _ hr]
  by_cases hupper : 0x41 ≤ ch.toNat ∧ ch.toNat ≤ 0x5A
  · rw [dif_neg hdigit, dif_pos hupper, charRows_letter cfg (l := ch.toNat - 0x41) (by omega) (by omega),
      glyphRows_getD_eq _ hr]
  by_cases hlower : 0x61 ≤ ch.toNat ∧ ch.toNat ≤ 0x7A
  · rw [dif_neg hdigit, dif_neg hupper, dif_pos hlower,
      charRows_letter cfg (l := ch.toNat - 0x61) (by omega) (by omega), glyphRows_getD_eq _ hr]
  · rw [dif_neg hdigit, dif_neg hupper, dif_neg hlower, charRows_other cfg hdigit hupper hlower, blankRows_getD,
      ite_self]

/-! ### The obligations -/

/-- Settles O15: RenderGlyph writes the eight rows of the glyph, each its font row two columns to the right. -/
theorem renderGlyphRows : Obligations.RenderGlyphRows := by
  refine fun s d p => ⟨s.setRows_onlyBuffer d _, fun d' r hr hd => ?_, ?_, fun r k hr hk => ?_⟩
  · rw [s.cell_renderGlyph d p hr, if_neg hd]
  · rw [s.cell_renderGlyph d p (by decide), if_pos rfl, if_pos rfl]
  · rw [s.cell_renderGlyph d p (by omega), if_pos rfl, if_neg (by omega), getLsbD_glyphRow p hr hk]

/-- Settles O16: a number 0 to 9 renders its glyph; any other number, and any other device, is ignored. -/
theorem renderDigitWritesGlyph : Obligations.RenderDigitWritesGlyph := by
  refine fun s dev arg hr => ⟨?_, fun hbad => exec_renderDigit_ignored hr ?_⟩
  · rintro n hn rfl hd
    exact ⟨_, exec_renderDigit_number hr hd hn, s.setRows_onlyBuffer _ _, fun d r => s.cell_renderGlyph _ _⟩
  · rw [Bool.eq_false_iff, ne_eq, isDigitValue_iff, signedNumber]
    omega

/-- Settles O17: a letter in either case renders its glyph; any other byte folds to itself and is ignored. -/
theorem renderLetterWritesGlyph : Obligations.RenderLetterWritesGlyph := by
  refine fun s dev ch hr => ⟨fun l hl hch hd => ?_, fun hbad => exec_renderLetter_ignored hr ?_⟩
  · exact ⟨_, exec_renderLetter_letter hr hd hl hch, s.setRows_onlyBuffer _ _, fun d r => s.cell_renderGlyph _ _⟩
  · rw [Bool.eq_false_iff, ne_eq, isUpper_iff, toNat_foldLetter]
    split <;> omega

/-- Settles O18: a lower-case letter and its upper case have one letter number. -/
theorem caseFoldEquivalence : Obligations.CaseFoldEquivalence := by
  intro s dev ch hr hlo hhi
  have hupper : (ch - 0x20).toNat = ch.toNat - 0x20 :=
    toNat_sub_first (show ch.toNat = 0x20 + (ch.toNat - 0x20) by omega)
  rcases Nat.lt_or_ge dev.toNat s.count with hd | hd
  · rw [exec_renderLetter_letter (l := ch.toNat - 0x61) hr hd (by omega) (by omega),
      exec_renderLetter_letter (l := ch.toNat - 0x61) hr hd (by omega) (by omega)]
  · rw [exec_renderLetter_ignored hr (.inl hd), exec_renderLetter_ignored hr (.inl hd)]

/-- Settles O19: the loop over the devices gives each the rows of its own character. -/
theorem renderTextOneCharPerDevice : Obligations.RenderTextOneCharPerDevice := by
  refine fun s text hr hlen => ⟨_, exec_renderText hr hlen, s.fillDevices_onlyBuffer _ _, fun d r hrow => ?_⟩
  rw [s.cell_fillDevices _ _ (fun _ => charRows_length _ _) hrow, charRows_getD _ hrow, effectiveText]

end Sys2Proof.Machine
end

section
/-! PROOFS. Clear and indicator commands (41_buffer_glyph.md section 3): the one bit SET_COLON and SET_DECIMAL change
(R128, R129), the degree overlay and its exclusion with glyphs (R130, R132), and that no buffer command reaches the
wires (R122, R133). -/

namespace Sys2Proof.Machine

/-! ### The indicator bits -/

/-- A mask of bit `b` alone, set with `or` or cleared with `and` of its complement, changes that bit only. -/
theorem getLsbD_maskBit {m : Byte} {b : Nat} (hm : ∀ k < 8, m.getLsbD k = decide (k = b)) (on : Bool) (v : Byte)
    {k : Nat} (hk : k < 8) : (if on then v ||| m else v &&& ~~~m).getLsbD k = if k = b then on else v.getLsbD k := by
  cases on with
  | true =>
    rw [if_pos rfl, BitVec.getLsbD_or, hm k hk]
    by_cases hkb : k = b <;> simp [hkb]
  | false =>
    rw [if_neg Bool.false_ne_true, BitVec.getLsbD_and, BitVec.getLsbD_not, hm k hk]
    by_cases hkb : k = b <;> simp [hkb, hk]

theorem getLsbD_colonCell (on : Bool) (v : Byte) {k : Nat} (hk : k < 8) :
    (colonCell on v).getLsbD k = if k = 1 then on else v.getLsbD k :=
  getLsbD_maskBit (m := 0x02) (by decide) on v hk

theorem getLsbD_decimalCell (on : Bool) (v : Byte) {k : Nat} (hk : k < 8) :
    (decimalCell on v).getLsbD k = if k = 7 then on else v.getLsbD k :=
  getLsbD_maskBit (m := 0x80) (by decide) on v hk

/-- Where `f` changes bit `b` only, row 7 rewritten by `f` changes that bit of that cell only. -/
theorem State.getLsbD_cell_setIndicator (s : State) (d : Nat) {f : Byte → Byte} {b : Nat} {on : Bool}
    (hf : ∀ v k, k < 8 → (f v).getLsbD k = if k = b then on else v.getLsbD k) {d' r k : Nat} (hr : r < 8) (hk : k < 8) :
    ((s.setCell d indicatorRow (f (s.cell d indicatorRow))).cell d' r).getLsbD k =
      if d' = d ∧ r = 7 ∧ k = b then on else (s.cell d' r).getLsbD k := by
  rw [s.cell_setCell _ (by decide) hr, indicatorRow]
  by_cases hcell : d' = d ∧ r = 7
  · obtain ⟨rfl, rfl⟩ := hcell
    simp [hf _ _ hk]
  · rw [if_neg hcell, if_neg fun h => hcell ⟨h.1, h.2.1⟩]

theorem Memory.write_write {m : Memory} (hm : m.wf = true) (a : Nat) (v w : Byte) :
    (m.write a v).write a w = m.write a w := by
  refine Memory.eq_of_read_eq (Memory.wf_write _ _ (Memory.wf_write _ _ hm)) (Memory.wf_write _ _ hm) fun b => ?_
  simp only [Memory.read_write]
  split <;> rfl

/-- Row 7 written, then rewritten by `f` from what it holds, is row 7 written once. -/
theorem State.setIndicator_rewrite {s : State} (hs : s.CanonicalBuffer) (d : Nat) (v : Byte) (f : Byte → Byte) :
    (s.setCell d indicatorRow v).setCell d indicatorRow (f ((s.setCell d indicatorRow v).cell d indicatorRow)) =
      s.setCell d indicatorRow (f v) := by
  rw [s.cell_setCell v (by decide) (by decide), if_pos ⟨rfl, rfl⟩, State.setCell, State.setCell_buf,
    Memory.write_write hs]
  rfl

theorem decimalCell_colonCell (v : Byte) : decimalCell true (colonCell true v) = v ||| 0x82 :=
  BitVec.or_assoc v 0x02 0x80

theorem colonCell_decimalCell (v : Byte) : colonCell true (decimalCell true v) = v ||| 0x82 :=
  BitVec.or_assoc v 0x80 0x02

/-! ### Cleared and overlaid rows -/

theorem State.cell_clearCells (s : State) (d : Nat) {d' r : Nat} (hr : r < 8) :
    (s.clearCells d).cell d' r = if d' = d then 0 else s.cell d' r := by
  have hall : (d' = d ∧ r < blankRows.length) ↔ d' = d := and_iff_left hr
  rw [State.clearCells, s.cell_setRows _ blankRows_length.le hr, blankRows_getD, if_congr hall rfl rfl]

theorem State.cell_setDegree (s : State) (d : Nat) (on : Bool) {d' r : Nat} (hr : r < 8) :
    (s.setRows d (degreeRows s.cfg on)).cell d' r =
      if d' = d ∧ r = 0 then (if on then s.cfg.degRow0 else 0x00)
      else if d' = d ∧ r = 1 then (if on then s.cfg.degRow1 else 0x00)
      else s.cell d' r := by
  rw [s.cell_setRows _ (by rw [degreeRows_length]; omega) hr, degreeRows_length]
  match r with
  | 0 | 1 => cases on <;> simp [degreeRows]
  | r + 2 => simp

/-! ### What was written last -/

/-- An instruction that writes rows 0 and 1 of the device, whatever the buffer holds, excludes the degree pattern there
(R132). -/
theorem lastWrittenShows_of_writes {s : State} {dev : Byte} {i : Instr} {row : Nat → Byte} (hr : s.Ready)
    (hd : dev.toNat < s.count)
    (hi : ∀ t, s.OnlyBuffer t → ∃ u, exec i t = .next u ∧ t.OnlyBuffer u ∧ ∀ r < 2, u.cell dev.toNat r = row r) :
    LastWrittenShows s dev i row := by
  constructor
  · obtain ⟨u, hu, -, hrows⟩ := hi _ (s.setRows_onlyBuffer dev.toNat (degreeRows s.cfg true))
    exact ⟨_, u, exec_setDegree true hr hd, hu, hrows 0 (by decide), hrows 1 (by decide)⟩
  · obtain ⟨t, ht, hbuf, -⟩ := hi s rfl
    refine ⟨t, _, ht, exec_setDegree true (hbuf.ready hr) (hbuf.count ▸ hd), ?_, ?_⟩
    · rw [t.cell_setDegree _ true (by decide), if_pos ⟨rfl, rfl⟩, if_pos rfl, hbuf.cfg]
    · rw [t.cell_setDegree _ true (by decide), if_neg (by simp), if_pos ⟨rfl, rfl⟩, if_pos rfl, hbuf.cfg]

/-! ### Off the wire -/

theorem frameFields_of_bufferCommand {i : Instr} (hb : bufferCommand i = true) : frameFields i = none := by
  cases i with
  | renderDigit | renderLetter | renderText | clearDevice | setColon | setDecimal | setDegree
  | clearAllIndicators => rfl
  | _ => cases hb

/-- A buffer command changes FAULT and the buffer at most (R133, R203). -/
theorem Effect.of_bufferCommand {s t : State} {i : Instr} (he : Effect s i t) (hb : bufferCommand i = true) :
    ∃ fault buf, t = { s with fault := fault, buf := buf } := by
  cases he with
  | raised | ignored | colon | decimal => exact ⟨_, _, rfl⟩
  | digit | letter | clear | degree => exact ⟨_, _, s.setRows_onlyBuffer _ _⟩
  | text => exact ⟨_, _, s.fillDevices_onlyBuffer _ _⟩
  | indicators => exact ⟨_, _, s.clearIndicators_onlyBuffer _⟩
  | broadcast | targeted | refresh | clearDisplay | begin => cases hb
  | latched i f hf => rw [frameFields_of_bufferCommand hb] at hf; cases hf

/-! ### The obligations -/

/-- Settles O20: ClearCells writes eight zero rows. -/
theorem clearDeviceZeroes : Obligations.ClearDeviceZeroes := fun s _ hr hd =>
  ⟨_, exec_clearDevice hr hd, s.setRows_onlyBuffer _ _, fun _ _ => s.cell_clearCells _⟩

/-- Settles O21: each command rewrites row 7 of its device, and its rewriting changes one bit. -/
theorem indicatorsChangeOneBit : Obligations.IndicatorsChangeOneBit := fun s _ on hr hd =>
  ⟨⟨_, exec_setColon on hr hd, rfl, fun _ _ _ => s.getLsbD_cell_setIndicator _ fun v _ => getLsbD_colonCell on v⟩,
    ⟨_, exec_setDecimal on hr hd, rfl, fun _ _ _ => s.getLsbD_cell_setIndicator _ fun v _ => getLsbD_decimalCell on v⟩⟩

/-- Settles O22: in both orders the second write to row 7 replaces the first, and the two bits are set either way. -/
theorem colonThenDecimalCombine : Obligations.ColonThenDecimalCombine := by
  intro s dev hr hs hd
  refine ⟨_, _, exec_setColon true hr hd, exec_setDecimal true hr hd, ?_, _, exec_setDecimal true hr hd,
    (exec_setColon true (s := s.setCell _ _ _) hr hd).trans ?_⟩
  · rw [State.setIndicator_rewrite hs, decimalCell_colonCell, s.cell_setCell _ (by decide) (by decide)]
    exact if_pos ⟨rfl, rfl⟩
  · rw [State.setIndicator_rewrite hs, State.setIndicator_rewrite hs, decimalCell_colonCell, colonCell_decimalCell]

/-- Settles O23: the overlay is the two rows of the degree pattern, or two zero rows. -/
theorem setDegreeOverlaysTwoRows : Obligations.SetDegreeOverlaysTwoRows := fun s _ on hr hd =>
  ⟨_, exec_setDegree on hr hd, s.setRows_onlyBuffer _ _, fun _ _ => s.cell_setDegree _ on⟩

/-- Settles O24: a digit, a letter and a text each write rows 0 and 1 of the device, whatever the buffer holds. -/
theorem degreeAndGlyphExclude : Obligations.DegreeAndGlyphExclude := by
  refine fun s dev hr hd => ⟨fun n hn => ?_, fun ch l hl hch => ?_, fun text hlen => ?_⟩ <;>
    refine lastWrittenShows_of_writes hr hd fun t ht => ?_
  · obtain ⟨u, hu, hbuf, hcell⟩ := (renderDigitWritesGlyph t dev _ (ht.ready hr)).1 n hn rfl (ht.count.symm ▸ hd)
    refine ⟨u, hu, hbuf, fun r hlt => ?_⟩
    rw [hcell _ r (by omega), if_pos rfl, if_neg (by omega), ht.cfg]
  · obtain ⟨u, hu, hbuf, hcell⟩ := (renderLetterWritesGlyph t dev ch (ht.ready hr)).1 l hl hch (ht.count.symm ▸ hd)
    refine ⟨u, hu, hbuf, fun r hlt => ?_⟩
    rw [hcell _ r (by omega), if_pos rfl, if_neg (by omega), ht.cfg]
  · obtain ⟨u, hu, hbuf, hcell⟩ := renderTextOneCharPerDevice t text (ht.ready hr) hlen
    refine ⟨u, hu, hbuf, fun r hlt => ?_⟩
    rw [hcell _ r (by omega), if_pos (ht.count.symm ▸ hd), ht.cfg]

/-- Settles O25: the loop clears row 7 of each device in turn. -/
theorem clearAllIndicatorsClearsRow7 : Obligations.ClearAllIndicatorsClearsRow7 := fun s hr =>
  ⟨_, exec_clearAllIndicators hr, s.clearIndicators_onlyBuffer _, fun _ _ => s.cell_clearIndicators _⟩

/-- Settles O26: the device guard answers before the command's own rule. -/
theorem invalidIndexIsIgnored : Obligations.InvalidIndexIsIgnored := by
  intro s dev arg letter on hr hd
  obtain ⟨hclear, hcolon, hdecimal, hdegree⟩ := exec_outside on hr hd
  exact ⟨exec_renderDigit_ignored hr (.inl hd), exec_renderLetter_ignored hr (.inl hd), hcolon, hdecimal, hdegree,
    hclear⟩

/-- Settles O27: whatever a buffer command does, it changes FAULT and the buffer at most. -/
theorem bufferCommandsStayOffTheWire : Obligations.BufferCommandsStayOffTheWire := by
  intro i s t hb h
  obtain ⟨fault, buf, rfl⟩ := (exec_effect h).of_bufferCommand hb
  exact ⟨rfl, rfl, rfl, rfl, rfl, rfl⟩

end Sys2Proof.Machine
end

section
/-! PROOFS. Refresh and initialisation (42_refresh_init.md): what a REFRESH and a CLEAR_DISPLAY send and leave on the
chain (R150 to R152), and the configuration a BEGIN gives every device (R153 to R156). -/

namespace Sys2Proof.Machine

/-! ### From a state with the same TRACE or the same chain -/

theorem State.Sends.of_trace_eq {s m t : State} {txs : List (List Frame)} (h : m.Sends t txs)
    (hm : m.trace = s.trace) : s.Sends t txs :=
  ⟨hm ▸ h.1, h.2⟩

theorem State.EachDevice.of_chain_eq {s m t : State} {n : Nat} {f : Nat → Device → Device} (h : m.EachDevice t n f)
    (hm : m.chain = s.chain) : s.EachDevice t n f :=
  fun p => hm ▸ h p

/-! ### The rows of a refresh -/

theorem State.OnlyWires.block_eq {s t : State} (h : s.OnlyWires t) :
    t.buf = s.buf ∧ t.ndev = s.ndev ∧ t.init = s.init ∧ t.fault = s.fault := by
  rw [h]
  exact ⟨rfl, rfl, rfl, rfl⟩

/-- The frames of a row in send order, the far end first (R105, R106). -/
theorem rowFrames_eq_map (s : State) (r : Nat) :
    rowFrames s r = (List.range s.count).map fun j =>
      { addr := BitVec.ofNat 4 (r + 1), data := s.cell (s.count - 1 - j) r } :=
  framesFor_eq s.count _

/-! ### Over cleared cells -/

theorem State.clearBuffer_onlyBuffer (s : State) (n : Nat) : s.OnlyBuffer (s.clearBuffer n) :=
  s.fillDevices_onlyBuffer n _

/-- Every device the count reaches shows eight zero rows (R152). -/
def State.Blank (s : State) : Prop := ∀ d < s.count, ∀ r < 8, s.cell d r = 0

theorem State.clearBuffer_blank (s : State) : (s.clearBuffer s.count).Blank := by
  intro d hd r hr
  rw [(s.clearBuffer_onlyBuffer s.count).count] at hd
  rw [s.cell_clearBuffer s.count hr, if_pos hd]

theorem State.Blank.rowFrames_eq {s : State} (h : s.Blank) {r : Nat} (hr : r < 8) :
    rowFrames s r = List.replicate s.count { addr := BitVec.ofNat 4 (r + 1), data := 0x00 } := by
  have hzero : ∀ j ∈ List.range s.count, s.cell (s.count - 1 - j) r = 0x00 := fun j hj =>
    h _ (by have := List.mem_range.1 hj; omega) r hr
  rw [rowFrames_eq_map, List.map_congr_left fun j hj => congrArg (Frame.mk _) (hzero j hj), List.map_const',
    List.length_range]

theorem State.Blank.refreshed_eq {s : State} (h : s.Blank) {p : Nat} (hp : p < s.count) (d : Device) :
    Device.refreshed s p d = { d with sr := 0x0800, digits := Vector.replicate 8 0x00 } := by
  have hdigits : (Vector.ofFn fun r : Fin 8 => s.cell p r) = Vector.replicate 8 0x00 := by
    ext r hr
    rw [Vector.getElem_ofFn, Vector.getElem_replicate, h p hp r hr]
  rw [Device.refreshed, hdigits, h p hp 7 (by decide)]
  rfl

/-! ### A sequence of broadcasts, device by device -/

/-- A device after the frames, each latched in turn (R103, R173). -/
def Device.receivedAll (fs : List Frame) (d : Device) : Device :=
  fs.foldl (fun d f => Device.apply f.addr f.data d { d with sr := f.word }) d

theorem State.EachDevice.refl (s : State) (n : Nat) : s.EachDevice s n fun _ d => d := by
  intro p
  simp

theorem State.broadcasts_eachDevice (fs : List Frame) (hfs : ∀ f ∈ fs, f.addr ≠ 0xD ∧ f.addr ≠ 0xE) (s : State) :
    s.EachDevice (fs.foldl (fun s f => s.broadcast f) s) s.count fun _ => Device.receivedAll fs := by
  induction fs generalizing s with
  | nil => exact State.EachDevice.refl s s.count
  | cons f fs ih =>
    obtain ⟨-, -, hcount, hfirst⟩ := s.broadcast_spec f (hfs f List.mem_cons_self) rfl
    have hrest := ih (fun x hx => hfs x (List.mem_cons_of_mem f hx)) (s.broadcast f)
    rw [hcount] at hrest
    exact hfirst.trans hrest

/-! ### The configuration -/

/-- A device under the configuration BEGIN sends: normal operation, no display test, no decoding, all eight rows
scanned (R154). -/
def Device.configured (cfg : Config) (d : Device) : Device :=
  { d with sr := 0x0C01, shutdown := 1, test := 0, decode := 0x00, scanLimit := 7, intensity := cfg.initIntensity }

/-- The last frame to each register stands; SHUTDOWN, written first and last, is left at 1 (R154, R155). -/
theorem Device.receivedAll_initSequence (cfg : Config) (d : Device) :
    Device.receivedAll (initSequence cfg) d = Device.configured cfg d := by
  have hintensity : (cfg.initIntensity.setWidth 8).extractLsb' 0 4 = cfg.initIntensity :=
    (BitVec.extractLsb'_setWidth_of_le (by decide)).trans BitVec.extractLsb'_eq_self
  exact congrArg (fun x => { Device.configured cfg d with intensity := x }) hintensity

theorem State.configure_eachDevice (s : State) :
    s.EachDevice s.configure s.count fun _ => Device.configured s.cfg :=
  (State.broadcasts_eachDevice _ (initSequence_specified s.cfg) s).congr fun _ _ =>
    Device.receivedAll_initSequence s.cfg

/-! ### The obligations -/

/-- Settles O32: the eight row transactions carry the cells, and leave each device's digit registers at its own. -/
theorem refreshPushesTheBuffer : Obligations.RefreshPushesTheBuffer := by
  intro s hr
  obtain ⟨hwires, hsends⟩ := s.refreshAll_spec
  rw [funext (rowFrames_eq_map s)] at hsends
  exact ⟨_, exec_refresh hr, hwires, hsends, s.refreshAll_eachDevice⟩

/-- Settles O34: a REFRESH drives the wires only. -/
theorem refreshKeepsBlockState : Obligations.RefreshKeepsBlockState := by
  intro s t hr h
  obtain rfl : s.refreshAll = t := Host.Outcome.next.inj ((exec_refresh hr).symm.trans h)
  obtain ⟨hwires, -⟩ := s.refreshAll_spec
  exact hwires.block_eq

/-- Settles O36: CLEAR_DISPLAY is a REFRESH of the cleared buffer. -/
theorem clearDisplayClearsAndFlushes : Obligations.ClearDisplayClearsAndFlushes := by
  intro s hr
  have hbuf := s.clearBuffer_onlyBuffer s.count
  have hblank := s.clearBuffer_blank
  have hcell := fun d r => s.cell_clearBuffer s.count (d := d) (r := r)
  refine ⟨_, exec_clearDisplay hr, ?_⟩
  generalize s.clearBuffer s.count = m at *
  obtain ⟨hwires, hsends⟩ := m.refreshAll_spec
  have hdev := m.refreshAll_eachDevice.congr fun p hp d => hblank.refreshed_eq hp d
  rw [List.map_congr_left fun r hr8 => hblank.rowFrames_eq (List.mem_range.1 hr8), hbuf.count] at hsends
  rw [hbuf.count] at hdev
  generalize m.refreshAll = t at *
  exact ⟨by rw [hwires, hbuf], fun d r hr8 => (hwires.cell d r).trans (hcell d r hr8),
    hsends.of_trace_eq (by rw [hbuf]), hdev.of_chain_eq (by rw [hbuf])⟩

/-- Settles O37: the six broadcasts go out over idle ports and cleared cells to the devices of the new count, and INIT
is set after them. -/
theorem beginConfiguresTheChain : Obligations.BeginConfiguresTheChain := by
  intro s n hfault hlo hhi
  have hexec : exec (.begin n) s = .next (s.beginCleared n).configure.markInit := exec_begin hfault hlo hhi
  have hm := s.beginCleared_eq n
  have hcount := s.beginCleared_count n
  have hcell := fun d r => s.cell_beginCleared n (d := d) (r := r)
  refine ⟨_, hexec, ?_⟩
  generalize s.beginCleared n = m at *
  obtain ⟨hwires, hsends⟩ := m.configure_spec
  have hdev := m.configure_eachDevice
  have hcfg : m.cfg = s.cfg := by rw [hm]
  rw [hcount, hcfg] at hsends hdev
  generalize m.configure = t at *
  have ⟨_, hcs, hclk⟩ := hsends
  have hreached : 0 < t.count := by
    rw [hwires.count, hcount]
    exact hlo
  have hframe : t.markInit = { s with
      init := true, ndev := n, driven := true, buf := t.buf, trace := t.trace, din := t.din, clk := t.clk, cs := t.cs,
      chain := t.chain } := by
    rw [State.markInit, hwires, hm]
  exact ⟨rfl, by rw [hframe], by rw [hframe], hcs, hclk hreached, hframe,
    fun d r hr => (hwires.cell d r).trans (hcell d r hr), hsends.of_trace_eq (by rw [hm]),
    hdev.of_chain_eq (by rw [hm])⟩

end Sys2Proof.Machine
end

section
/-! PROOFS. The devices and their frames (43_device_frames.md): what a latch of its own does (R173 to R181), the frame a
transaction brings each device (R182), what a device shows (R184, R186), and the listing of the chain (R170, R171). -/

namespace Sys2Proof.Machine

/-! ### The step that latches -/

/-- Whatever the high nibble, the address field of a shift register is read back (R173). -/
theorem frameAddr_append (nibble : BitVec 4) (addr : Addr) (data : Byte) :
    frameAddr ((nibble ++ addr) ++ data) = addr := by
  rw [frameAddr, BitVec.extractLsb'_append_eq_of_le (by decide)]
  exact BitVec.extractLsb'_append_eq_right

theorem frameData_append (nibble : BitVec 4) (addr : Addr) (data : Byte) :
    frameData ((nibble ++ addr) ++ data) = data :=
  BitVec.extractLsb'_append_eq_right

theorem fetch_of_latchPending {s : State} {d : Device} (hl : s.latchPending = true)
    (hd : s.chain[s.latchPos]? = some d) : fetch s = fetchFrame d.sr := by
  rw [fetch, if_pos hl, hd]

theorem fetchFrame_of_frameFields {i : Instr} {f : Frame} (nibble : BitVec 4) (hf : frameFields i = some f) :
    fetchFrame ((nibble ++ f.addr) ++ f.data) = .frame i := by
  rw [fetchFrame, frameAddr_append, frameData_append, frameKind_of_frameFields hf]

/-- No frame kind stands for 0xD or 0xE (R85). -/
theorem frameKind_eq_none {addr : Addr} (data : Byte) (h : addr = 0xD ∨ addr = 0xE) : frameKind addr data = none := by
  rcases h with rfl | rfl <;> rfl

theorem frameFields_specified {i : Instr} {f : Frame} (hf : frameFields i = some f) :
    f.addr ≠ 0xD ∧ f.addr ≠ 0xE := by
  refine not_or.1 fun h => ?_
  cases (frameKind_of_frameFields hf).symm.trans (frameKind_eq_none f.data h)

theorem fetchFrame_of_unspecified {sr : FrameWord} (h : frameAddr sr = 0xD ∨ frameAddr sr = 0xE) :
    fetchFrame sr = .unspecified := by
  rw [fetchFrame, frameKind_eq_none _ h]

/-! ### The device that latches -/

theorem State.latchWith_onlyChain (s : State) (f : Device → Device) : s.OnlyChain (s.latchWith f) := rfl

theorem State.oneDevice_of_modify {s t : State} {f : Device → Device} (h : t.chain = s.chain.modify s.latchPos f) :
    s.OneDevice t f := by
  intro p
  rw [h, List.getElem?_modify]
  simp only [eq_comm (a := p)]
  rfl

/-- A frame kind completes in every state, and the latching device, no other, follows the rule of the address (R173 to
R180). -/
theorem exec_frame_oneDevice {i : Instr} {f : Frame} (s : State) (hf : frameFields i = some f) :
    ∃ t, exec i s = .next t ∧ s.OnlyChain t ∧ s.OneDevice t (latchRule f.addr f.data) := by
  have hrule : Device.apply f.addr f.data Device.powerUp = latchRule f.addr f.data :=
    funext fun d => Device.apply_eq_latchRule f.data _ d (frameFields_specified hf)
  exact ⟨_, exec_frame s hf, s.latchWith_onlyChain _, hrule ▸ State.oneDevice_of_modify rfl⟩

/-- The rule of a digit register, by row number (R175). -/
theorem latchRule_rowAddr_ofFn (k : Fin 8) (data : Byte) :
    latchRule (rowAddr k) data =
      fun d => { d with digits := Vector.ofFn fun j => if j = k then data else d.digits[j] } := by
  funext d
  rw [latchRule_rowAddr, Device.latchDigit]
  congr 1
  ext j hj
  simp only [Vector.getElem_ofFn, Vector.getElem_set, Fin.ext_iff, eq_comm (a := j)]
  rfl

/-! ### What a device shows -/

theorem Device.shown_test {d : Device} (k : Fin 8) (ht : d.test = 1) : Device.shown d k = .allLit := by
  rw [Device.shown, if_pos ht]

theorem Device.shown_shutdown {d : Device} (k : Fin 8) (hs : d.shutdown = 0) (ht : d.test = 0) :
    Device.shown d k = .dark := by
  rw [Device.shown, ht, if_neg (by decide), if_pos hs]

theorem Device.shown_normal {d : Device} (k : Fin 8) (hs : d.shutdown = 1) (ht : d.test = 0) :
    Device.shown d k =
      if d.decode = 0x00 ∧ k.val ≤ d.scanLimit.toNat then .pattern d.digits[k] else .unspecified := by
  rw [Device.shown, ht, if_neg (by decide), hs, if_neg (by decide)]

/-- A pattern is shown only past both checks, and is then the digit register (R184). -/
theorem Device.shown_eq_pattern_iff (d : Device) (k : Fin 8) (b : Byte) :
    Device.shown d k = .pattern b ↔
      d.shutdown = 1 ∧ d.test = 0 ∧ d.decode = 0x00 ∧ k.val ≤ d.scanLimit.toNat ∧ b = d.digits[k] := by
  have hbit : ∀ x : BitVec 1, x = 0 ∨ x = 1 := by decide
  rcases hbit d.test with ht | ht
  · rcases hbit d.shutdown with hs | hs
    · simp [Device.shown_shutdown k hs ht, hs]
    · rw [Device.shown_normal k hs ht]
      split
      case isTrue hscan =>
        exact ⟨fun h => ⟨hs, ht, hscan.1, hscan.2, (Shown.pattern.inj h).symm⟩, fun ⟨_, _, _, _, h⟩ => h ▸ rfl⟩
      case isFalse hscan =>
        exact ⟨fun h => (by cases h), fun ⟨_, _, hdecode, hrow, _⟩ => absurd ⟨hdecode, hrow⟩ hscan⟩
  · simp [Device.shown_test k ht, ht]

/-! ### The listing of the chain -/

/-- No position is lost and no latch is added. -/
theorem State.ChainListed.of_kept {s t : State} (hs : s.ChainListed) (hlen : t.chain.length = s.chain.length)
    (hpos : t.latchPos = s.latchPos) (hlatch : t.latchPending = true → s.latchPending = true) : t.ChainListed :=
  ⟨hlen.trans hs.1, fun h => hpos ▸ hs.2 (hlatch h)⟩

theorem State.ChainListed.getElem? {s : State} (hs : s.ChainListed) {n : Byte} {p : Nat} (hp : p < n.toNat) :
    ∃ d, s.chain[p]? = some d := by
  have hlen : s.chain.length = 255 := hs.1
  have := n.isLt
  exact ⟨_, List.getElem?_eq_getElem (show p < s.chain.length by omega)⟩

theorem Shape.chainListed {s t : State} {i : Instr} (h : Shape s i t) (hs : s.ChainListed) : t.ChainListed := by
  cases h with
  | raised _ _ _ ht | buffer _ _ ht =>
    rw [ht]
    exact hs
  | sends _ _ _ _ _ _ _ ht hch | began _ _ _ _ _ _ _ _ _ ht hch =>
    exact hs.of_kept hch (by rw [ht]) fun h => by rwa [ht] at h
  | latched _ _ ht =>
    rw [ht]
    exact hs.of_kept (List.length_modify ..) rfl fun h => absurd h Bool.false_ne_true

/-! ### The obligations -/

/-- Settles O29: the bits of a slot end in its device, and a specified address leaves no free value. -/
theorem transactionDeliversEachSlot : Obligations.TransactionDeliversEachSlot := by
  intro s fs hlen haddr
  refine ⟨s.transaction_sends fs hlen, s.transaction_onlyWires fs hlen haddr,
    (s.transaction_eachDevice fs hlen haddr).congr fun p hp d => ?_⟩
  have hslot : s.count - 1 - p < fs.length := by omega
  have hmem : fs.getD (s.count - 1 - p) Frame.noop ∈ fs := by
    rw [List.getD_eq_getElem _ _ hslot]
    exact List.getElem_mem hslot
  exact Device.apply_eq_latchRule _ d _ (haddr _ hmem)

/-- Settles O38: a REFRESH leaves the configuration of BEGIN, under which a device shows its digit registers. -/
theorem beginThenRefreshShowsTheBuffer : Obligations.BeginThenRefreshShowsTheBuffer := by
  intro s n hfault hlisted hlo hhi
  obtain ⟨t, hbegin, hinit, hndev, -, -, -, ht, -, -, hconf⟩ := beginConfiguresTheChain s n hfault hlo hhi
  have hready : t.Ready := ⟨by rw [ht]; exact hfault, hinit⟩
  obtain ⟨u, hrefresh, hwires, -, hrows⟩ := refreshPushesTheBuffer t hready
  have hcount : t.count = n.toNat := congrArg BitVec.toNat hndev
  refine ⟨t, u, hbegin, hrefresh, fun p hp => ?_⟩
  obtain ⟨d, hd⟩ := hlisted.getElem? hp
  have hchain := (hconf.trans (hcount ▸ hrows)) p
  rw [hd, Option.map_some, if_pos hp] at hchain
  have hdigit : ∀ k : Fin 8, (Vector.ofFn fun k : Fin 8 => t.cell p k)[k] = u.cell p k := fun k => by
    rw [hwires.cell]
    exact Vector.getElem_ofFn k.isLt
  refine ⟨_, hchain, rfl, rfl, rfl, rfl, rfl, fun k => ⟨hdigit k, ?_⟩⟩
  exact (Device.shown_eq_pattern_iff _ k _).2 ⟨rfl, rfl, rfl, Nat.le_of_lt_succ k.isLt, (hdigit k).symm⟩

/-- Settles O41: each digit frame carries the address of its row. -/
theorem digitFramesWriteOneRow : Obligations.DigitFramesWriteOneRow := by
  intro s data i k hmem
  have hfields : frameFields i = some { addr := rowAddr k, data := data } := by
    simp only [List.mem_cons, Prod.mk.injEq, List.not_mem_nil, or_false] at hmem
    rcases hmem with ⟨rfl, rfl⟩ | ⟨rfl, rfl⟩ | ⟨rfl, rfl⟩ | ⟨rfl, rfl⟩ | ⟨rfl, rfl⟩ | ⟨rfl, rfl⟩ | ⟨rfl, rfl⟩ |
      ⟨rfl, rfl⟩ <;> rfl
  exact latchRule_rowAddr_ofFn k data ▸ exec_frame_oneDevice s hfields

/-- Settles O42: each of the five is the rule of its own address. -/
theorem configurationFramesWriteOneRegister : Obligations.ConfigurationFramesWriteOneRegister := fun s data =>
  ⟨exec_frame_oneDevice (f := ⟨0x9, data⟩) s rfl, exec_frame_oneDevice (f := ⟨0xA, data⟩) s rfl,
    exec_frame_oneDevice (f := ⟨0xB, data⟩) s rfl, exec_frame_oneDevice (f := ⟨0xC, data⟩) s rfl,
    exec_frame_oneDevice (f := ⟨0xF, data⟩) s rfl⟩

/-- Settles O54: every shape of a next state keeps the length of the chain, and none adds a pending latch. -/
theorem stepKeepsChainListed : Obligations.StepKeepsChainListed := by
  intro s t hs h
  rcases step_shape h with ⟨i, rest, he⟩ | ⟨ht, hlen, -, hlatch⟩
  · exact he.shape.chainListed hs
  · exact hs.of_kept hlen (by rw [ht]) hlatch

/-- Settles O55: a device reads its frame's address and data past the high nibble, and the frame kind applies the same
rule. -/
theorem devicesApplyTheFrameRules : Obligations.DevicesApplyTheFrameRules := by
  intro i f hf
  refine ⟨fun nibble free d hsr => ?_, fun s => exec_frame_oneDevice s hf⟩
  rw [Device.latch, hsr, frameAddr_append, frameData_append]
  exact Device.apply_eq_latchRule f.data free d (frameFields_specified hf)

/-- Settles O3: the step fetches the latching device's frame, whatever its high nibble. -/
theorem stepRunsLatchedFrame : Obligations.StepRunsLatchedFrame := by
  intro s i f nibble d hl hd hsr hf
  rw [step, fetch_of_latchPending hl hd, hsr, fetchFrame_of_frameFields nibble hf]

/-- Settles O4: the latching device becomes the free value, which is one device whatever it is. -/
theorem unspecifiedLatchTouchesOneDevice : Obligations.UnspecifiedLatchTouchesOneDevice := by
  intro s d hl hd haddr
  have hstep : step s = .next s.latchUnspecified := by
    rw [step, fetch_of_latchPending hl hd, fetchFrame_of_unspecified haddr]
  exact ⟨_, hstep, rfl, Config.freeDevice s.draws s.latchPos, State.oneDevice_of_modify rfl⟩

/-- Settles O40: the rule of the no-op address leaves the device as it is. -/
theorem noopChangesNoDevice : Obligations.NoopChangesNoDevice := fun s _ =>
  ⟨_, exec_frame s rfl, s.latchWith_onlyChain _, List.modify_id s.latchPos s.chain⟩

/-- Settles O43: display test is checked first, then shutdown, then decoding and the scan limit. -/
theorem displayedImageFollowsRegisters : Obligations.DisplayedImageFollowsRegisters := fun d k =>
  ⟨Device.shown_test k, Device.shown_shutdown k, Device.shown_eq_pattern_iff d k⟩

end Sys2Proof.Machine
end

section
/-! PROOFS. The exceptions (60_exceptions.md): a fault is precise, final and sticky (R203), it is the only stop (R200,
R206), and the order of the checks (R204). -/

namespace Sys2Proof.Machine

/-! ### What an instruction and a step do to FAULT -/

/-- An instruction takes a fault and changes nothing else, or leaves FAULT as it is (R203). -/
theorem Shape.raised_or_fault_eq {s t : State} {i : Instr} (h : Shape s i t) :
    (s.fault = none ∧ t = { s with fault := t.fault }) ∨ t.fault = s.fault := by
  cases h with
  | raised _ _ hf ht => exact .inl ⟨hf, by rw [ht]⟩
  | buffer _ _ ht | sends _ _ _ _ _ _ _ ht _ | began _ _ _ _ _ _ _ _ _ ht _ => exact .inr (by rw [ht])
  | latched _ _ ht => exact .inr (by rw [ht, State.latchWith_fault])

/-- Nothing clears or replaces a recorded fault (R203). -/
theorem Shape.fault_sticky {s t : State} {i : Instr} (h : Shape s i t) (hs : s.fault ≠ none) : t.fault = s.fault :=
  h.raised_or_fault_eq.resolve_left fun hraised => hs hraised.1

theorem step_quiescent {s : State} (hl : s.latchPending = false) (hf : s.fault ≠ none) :
    step s = .fault .quiescent := by
  have hfetch : fetch s = .quiescent := by
    rw [fetch, hl, if_neg Bool.false_ne_true, if_pos (Option.isSome_iff_ne_none.2 hf)]
  rw [step, hfetch]

/-- A pending latch completes whatever FAULT holds, and an unfaulted block waits, raises or runs its command (R206). -/
theorem step_next {s : State} (h : s.latchPending = true ∨ s.fault = none) : ∃ t, step s = .next t := by
  rcases fetch_cases s with ⟨-, ⟨i, f, hi, hfetch⟩ | hfetch | hfetch⟩ | ⟨hl, hf, -⟩ | ⟨hs, hfetch⟩
  · rw [step, hfetch]
    exact ⟨_, exec_frame s hi⟩
  · exact ⟨_, by rw [step, hfetch]⟩
  · exact ⟨_, by rw [step, hfetch]⟩
  · simp [hl, hf] at h
  · rcases fetchCommand_cases s.port with ⟨i, rest, -, hport⟩ | ⟨w, hport⟩ | hport <;> rw [step, hfetch, hport]
    · exact exec_next (.inl hs.2)
    · exact ⟨_, rfl⟩
    · exact ⟨_, rfl⟩

/-! ### The word of a reserved register -/

/-- A BUS_TARGETED word to a reserved register is not legal (R83). -/
theorem not_legalWord_busTargeted {reg : Addr} (dev data : Byte) (h : reg = 0xD ∨ reg = 0xE) :
    ¬ LegalWord ((0x2#4 ++ dev) ++ (reg ++ (0#8 ++ data))) := by
  have hreserved : reservedAddr reg = true := by simpa [reservedAddr] using h
  rintro ⟨-, hnames⟩
  exact hnames ((namesReservedRegister_toWord ⟨0x2, dev, reg, 0#8 ++ data⟩).2 ⟨.inr rfl, hreserved⟩)

/-! ### The obligations -/

/-- Settles O12: the one shape of a next state that writes FAULT finds it empty and writes nothing else; with a record
in it, FAULT stops the prologue and the fetch before anything runs. -/
theorem faultsArePreciseFinalAndSticky : Obligations.FaultsArePreciseFinalAndSticky := by
  refine ⟨fun i s t hs h ht => ?precise, fun s => step_quiescent, fun i s => exec_faulted, fun s t hs h => ?sticky⟩
  case precise =>
    rcases (exec_shape h).raised_or_fault_eq with ⟨-, hraised⟩ | hkept
    · exact hraised
    · exact absurd (hkept.trans hs) ht
  case sticky =>
    rcases step_shape h with ⟨i, rest, he⟩ | ⟨-, -, hkept, -⟩
    · exact he.shape.fault_sticky hs
    · exact hkept hs

/-- Settles O13: either the step completes, or no latch is pending and FAULT holds a record. -/
theorem stepStopsOnlyWhenFaulted : Obligations.StepStopsOnlyWhenFaulted := by
  intro s
  by_cases hs : s.latchPending = false ∧ s.fault ≠ none
  · obtain ⟨hl, hf⟩ := hs
    simp [step_quiescent hl hf, hl, hf]
  · have hgo : s.latchPending = true ∨ s.fault = none := by
      rwa [not_and_or, ne_eq, not_not, Bool.not_eq_false] at hs
    obtain ⟨t, ht⟩ := step_next hgo
    simp [ht, hs]

/-- Settles O14: the word is refused before INIT or the target is looked at, then the prologue checks INIT, and only
then the command its own operand. -/
theorem faultPriority : Obligations.FaultPriority := by
  refine ⟨?illegal, ?uninitialised, fun s reg dev data hr h1 h2 hd => exec_busTargeted_bad data hr h1 h2 hd, ?badCount,
    ?uninitialisedOutside⟩
  case illegal =>
    intro s reg dev data rest hs hreg hport
    have hpayload : ([] : List Byte).length = bytesAfterWord ((0x2#4 ++ dev) ++ (reg ++ (0#8 ++ data))) :=
      (payloadLength_toWord ⟨0x2, dev, reg, 0#8 ++ data⟩).symm
    exact illegalWordsRaise.1 s _ [] rest hs hpayload (by rw [hport, List.append_nil])
      (not_legalWord_busTargeted dev data hreg)
  case uninitialised =>
    intro s reg dev data hf h1 h2 hinit
    have hop : (0x2 : BitVec 4) ≠ 0x0 := by decide
    exact exec_uninit (f := ⟨0x2, dev, reg, 0#8 ++ data⟩) rfl hf (wf_busTargeted dev data h1 h2) hop hinit
  case badCount =>
    intro s n hf hn
    refine exec_begin_bad hf (hn.imp_left ?_)
    rintro rfl
    decide
  case uninitialisedOutside =>
    intro s dev arg hf hinit _
    have hop : (0x3 : BitVec 4) ≠ 0x0 := by decide
    exact exec_uninit (f := ⟨0x3, dev, 0, arg⟩) rfl hf rfl hop hinit

end Sys2Proof.Machine
end

section
/-! PROOFS. Reset and hazards (70_reset_and_hazards.md): how many events each command emits (R231), and the chain in the
middle of a refresh (R233). -/

namespace Sys2Proof.Machine

/-! ### Counting events -/

/-- The events of `k` transactions of `n` frames each, by number: as many of either CS event as transactions, and
sixteen BIT events for each frame (R73, R231). -/
def EventCounts (n k : Nat) (es : List WireEvent) : Prop :=
  es.count .csLow = k ∧ es.count .csHigh = k ∧ es.count (.bit true) + es.count (.bit false) = 16 * n * k

theorem EventCounts.nil (n : Nat) : EventCounts n 0 [] := ⟨rfl, rfl, rfl⟩

theorem EventCounts.append {n k k' : Nat} {es es' : List WireEvent} (h : EventCounts n k es)
    (h' : EventCounts n k' es') : EventCounts n (k + k') (es ++ es') := by
  obtain ⟨hlow, hhigh, hbits⟩ := h
  obtain ⟨hlow', hhigh', hbits'⟩ := h'
  refine ⟨by rw [List.count_append, hlow, hlow'], by rw [List.count_append, hhigh, hhigh'], ?_⟩
  rw [List.count_append, List.count_append, Nat.mul_add, ← hbits, ← hbits']
  omega

theorem length_flatMap_frameBits (ws : List FrameWord) : (ws.flatMap frameBits).length = 16 * ws.length := by
  simp [List.length_flatMap, Nat.mul_comm]

/-- A transaction is one pair of CS events around sixteen bits for each frame (R73, R102). -/
theorem transactionEvents_eventCounts (fs : List Frame) : EventCounts fs.length 1 (transactionEvents fs) := by
  have hlen := length_flatMap_frameBits (fs.map Frame.word)
  rw [List.length_map] at hlen
  rw [transactionEvents_eq]
  generalize (fs.map Frame.word).flatMap frameBits = bs at hlen
  exact ⟨by simp [List.count_eq_zero_of_not_mem], by simp [List.count_eq_zero_of_not_mem], by simp [hlen]⟩

theorem FramesFit.eventCounts {n : Nat} {txs : List (List Frame)} (h : FramesFit n txs) :
    EventCounts n txs.length (txs.flatMap transactionEvents) := by
  induction txs with
  | nil => exact EventCounts.nil n
  | cons fs txs ih =>
    have hfs := transactionEvents_eventCounts fs
    rw [(h fs (by simp)).1] at hfs
    rw [List.flatMap_cons, List.length_cons, Nat.add_comm]
    exact hfs.append (ih fun gs hgs => h gs (by simp [hgs]))

theorem transactionsOf_bufferCommand {i : Instr} (hb : bufferCommand i = true) : transactionsOf i = 0 := by
  cases i with
  | begin | busBroadcast | busTargeted | refresh | clearDisplay => cases hb
  | _ => rfl

/-! ### The obligations -/

/-- Settles O33: by the induction on the rows sent of `State.refreshRows_eachDevice`, each row transaction writing its
own digit register of every device. -/
theorem refreshGoesRowByRow : Obligations.RefreshGoesRowByRow := fun s _ hk => s.refreshRows_eachDevice hk

/-- Settles O39: a raise leaves TRACE as it is, and so does a buffer command, ignored or not, which has no transactions;
the other commands send theirs, one frame for each device. -/
theorem eventCountsPerCommand : Obligations.EventCountsPerCommand := by
  intro i s t hc hs h
  suffices ∃ es, t.trace = s.trace ++ es ∧ (t.fault ≠ none → es = []) ∧
      (t.fault = none → EventCounts t.count (transactionsOf i) es) from this
  cases exec_shape h with
  | raised r _ _ ht => exact ⟨[], by simp [ht], fun _ => rfl, by simp [ht]⟩
  | buffer hb _ ht =>
    refine ⟨[], by rw [ht, List.append_nil], fun _ => rfl, fun _ => ?_⟩
    rw [transactionsOf_bufferCommand hb]
    exact EventCounts.nil _
  | sends txs _ _ _ hlen hfit hsends ht _ =>
    have hfault : t.fault = none := by rw [ht, hs]
    have hcount : t.count = s.count := by rw [ht]; rfl
    refine ⟨_, hsends.1, fun hf => absurd hfault hf, fun _ => ?_⟩
    rw [hcount, ← hlen]
    exact hfit.eventCounts
  | began n hi _ _ _ txs hlen hfit hsends ht _ =>
    have hfault : t.fault = none := by rw [ht, hs]
    have hcount : t.count = n.toNat := by rw [ht]; rfl
    refine ⟨_, hsends.1, fun hf => absurd hfault hf, fun _ => ?_⟩
    rw [hcount, hi, transactionsOf, ← hlen]
    exact hfit.eventCounts
  | latched f hf _ =>
    rw [frameFields_of_command hc] at hf
    cases hf

end Sys2Proof.Machine
end
